-- ==== Sys2Proof/Word.lean ====
section
/-! DEFINITION. The words of the engine: bytes of `BUF`, matrix entries, CSR words, commands, and the
numbers of the matrix registers. -/

namespace Sys2Proof

/-- A byte of `BUF` (R60). -/
abbrev Byte := BitVec 8

/-- A matrix entry: an unsigned 16-bit integer (R24, `EW` of R6). -/
abbrev Entry := BitVec 16

/-- A CSR as the host reads it: 32 bits (R30). -/
abbrev Word := BitVec 32

/-- A command: one 128-bit value, bit 0 least significant (R90, R9). -/
abbrev Command := BitVec 128

/-- One of the eight matrix registers `m0` to `m7` (R24); the reserved numbers 8 to 15 of R93 are no
register, so they are no value of this type. -/
abbrev MReg := Fin 8

end Sys2Proof
end

