-- ==== Sys2Proof/Syntax.lean ====
section
/-! DEFINITION. The command set: one constructor per row of `spec/opcode_table.json` (R95, R97), its operands
in the order of the assembler syntax (R101). -/

namespace Sys2Proof

/-- The twelve commands (R97). Scalar operands are the unsigned integers of R94; `WellFormed` says that they
fit their fields. -/
inductive Instr where
  /-- `NOP` (R185). -/
  | nop
  /-- `CSRW csr, value` (R186). -/
  | csrw (csr value : Nat)
  /-- `MCLR md` (R187). -/
  | mclr (md : MReg)
  /-- `MADD md, ma, mb` (R128). -/
  | madd (md ma mb : MReg)
  /-- `MSUB md, ma, mb` (R129): `ma - mb`. -/
  | msub (md ma mb : MReg)
  /-- `MMAC md, ma, mb, mc` (R130): `ma·mb + mc`. -/
  | mmac (md ma mb mc : MReg)
  /-- `ENC md, n1, n2, addr, len` (R146). -/
  | enc (md : MReg) (n1 n2 addr len : Nat)
  /-- `DEC ma, addr, len` (R147). -/
  | dec (ma : MReg) (addr len : Nat)
  /-- `PACK ma, addr, len` (R150). -/
  | pack (ma : MReg) (addr len : Nat)
  /-- `UNPK md, n1, n2, addr, len` (R151). -/
  | unpk (md : MReg) (n1 n2 addr len : Nat)
  /-- `LDBE md, n1, n2, addr, len` (R188). -/
  | ldbe (md : MReg) (n1 n2 addr len : Nat)
  /-- `SAMP md, n1, n2, addr, len` (R173). -/
  | samp (md : MReg) (n1 n2 addr len : Nat)
  deriving DecidableEq, Repr

/-! The pseudo-instructions of R102, each one command. -/

/-- `SETD v` (R102). -/
def Instr.setD (v : Nat) : Instr := .csrw 0x0000 v
/-- `SETB v` (R102). -/
def Instr.setB (v : Nat) : Instr := .csrw 0x0001 v
/-- `SETK v` (R102). -/
def Instr.setK (v : Nat) : Instr := .csrw 0x0002 v
/-- `SETX i, v`, `0 ≤ i ≤ 15` (R102). -/
def Instr.setX (i : Fin 16) (v : Nat) : Instr := .csrw (0x0010 + i.val) v

end Sys2Proof
end

