-- ==== Sys2Proof/WellFormed.lean ====
section
/-! DEFINITION. Which instructions have an encoding: every scalar operand fits its field (R91, R94). Registers
fit by their type. A dimension or a length that fits its field and is wrong for the command is a fault of the
command, not an ill-formed instruction (R94, V-E3). -/

namespace Sys2Proof

/-- `n1`, `n2` and `csr` are 16-bit fields (R91). -/
def fits16 (n : Nat) : Bool := n < 2 ^ 16

/-- `addr`, `len` and `value` are 32-bit fields (R91). -/
def fits32 (n : Nat) : Bool := n < 2 ^ 32

/-- The operands of a format-L command fit (R92). -/
def fitsL (n1 n2 addr len : Nat) : Bool := fits16 n1 && fits16 n2 && fits32 addr && fits32 len

/-- Every operand fits the field the format gives it (R91, R92). -/
def Instr.wellFormed : Instr → Bool
  | .nop => true
  | .csrw csr value => fits16 csr && fits32 value
  | .mclr _ => true
  | .madd _ _ _ => true
  | .msub _ _ _ => true
  | .mmac _ _ _ _ => true
  | .enc _ n1 n2 addr len => fitsL n1 n2 addr len
  | .dec _ addr len => fits32 addr && fits32 len
  | .pack _ addr len => fits32 addr && fits32 len
  | .unpk _ n1 n2 addr len => fitsL n1 n2 addr len
  | .ldbe _ n1 n2 addr len => fitsL n1 n2 addr len
  | .samp _ n1 n2 addr len => fitsL n1 n2 addr len

/-- `wellFormed` as a proposition. -/
abbrev Instr.WellFormed (i : Instr) : Prop := i.wellFormed = true

end Sys2Proof
end

