-- ==== Sys2Proof/Decode.lean ====
section
/-! DEFINITION. The decoder of 128-bit commands (R96, R98 step 2, R99), read off the opcode table, and after it
the encoder, read off the field table of R91. -/

namespace Sys2Proof

/-! ## Fields (R91) -/

/-- `cmd[lo + width - 1 : lo]` as an unsigned integer (R9, R94). -/
def cmdField (cmd : Command) (lo width : Nat) : Nat := (cmd.extractLsb' lo width).toNat

/-- The register named by the 4-bit field at `lo`: the low 3 bits; the top bit is a must-be-zero bit (R93). -/
def cmdReg (cmd : Command) (lo : Nat) : MReg := Fin.ofNat 8 (cmdField cmd lo 3)

def cmdMd (cmd : Command) : MReg := cmdReg cmd 8
def cmdMa (cmd : Command) : MReg := cmdReg cmd 12
def cmdMb (cmd : Command) : MReg := cmdReg cmd 16
def cmdMc (cmd : Command) : MReg := cmdReg cmd 20
/-- `n1`, and `csr` in format C: the same bits (R91). -/
def cmdN1 (cmd : Command) : Nat := cmdField cmd 32 16
def cmdN2 (cmd : Command) : Nat := cmdField cmd 48 16
/-- `addr`, and `value` in format C: the same bits (R91). -/
def cmdAddr (cmd : Command) : Nat := cmdField cmd 64 32
def cmdLen (cmd : Command) : Nat := cmdField cmd 96 32

/-! ## The opcode table (R95, R96) -/

/-- A row of the opcode table: a command is this row's when its bits under `mask` are `pattern` (R96). -/
structure Row where
  mnemonic : String
  mask : Command
  pattern : Command
  /-- The instruction a matching command stands for: its used fields (R92). -/
  read : Command → Instr

/-- The masks of R96, by format. -/
def maskZ : Command := 0xffffffffffffffffffffffffffffffff
def maskC : Command := 0xffffffff00000000ffff0000ffffffff
def maskD1 : Command := 0xfffffffffffffffffffffffffffff8ff
def maskA3 : Command := 0xfffffffffffffffffffffffffff888ff
def maskA4 : Command := 0xffffffffffffffffffffffffff8888ff
def maskL : Command := 0x000000000000000000000000fffff8ff
def maskS : Command := 0x0000000000000000ffffffffffff8fff

/-- The instruction a format-L command stands for, by its constructor. -/
def readL (mk : MReg → Nat → Nat → Nat → Nat → Instr) (cmd : Command) : Instr :=
  mk (cmdMd cmd) (cmdN1 cmd) (cmdN2 cmd) (cmdAddr cmd) (cmdLen cmd)

/-- The instruction a format-S command stands for, by its constructor. -/
def readS (mk : MReg → Nat → Nat → Instr) (cmd : Command) : Instr :=
  mk (cmdMa cmd) (cmdAddr cmd) (cmdLen cmd)

/-- The instruction a format-A3 command stands for, by its constructor. -/
def readA3 (mk : MReg → MReg → MReg → Instr) (cmd : Command) : Instr :=
  mk (cmdMd cmd) (cmdMa cmd) (cmdMb cmd)

/-- The twelve rows of R95. -/
def opcodeTable : List Row := [
  ⟨"NOP", maskZ, 0x01, fun _ => .nop⟩,
  ⟨"CSRW", maskC, 0x02, fun cmd => .csrw (cmdN1 cmd) (cmdAddr cmd)⟩,
  ⟨"MCLR", maskD1, 0x03, fun cmd => .mclr (cmdMd cmd)⟩,
  ⟨"MADD", maskA3, 0x10, readA3 .madd⟩,
  ⟨"MSUB", maskA3, 0x11, readA3 .msub⟩,
  ⟨"MMAC", maskA4, 0x12, fun cmd => .mmac (cmdMd cmd) (cmdMa cmd) (cmdMb cmd) (cmdMc cmd)⟩,
  ⟨"ENC", maskL, 0x20, readL .enc⟩,
  ⟨"DEC", maskS, 0x21, readS .dec⟩,
  ⟨"PACK", maskS, 0x22, readS .pack⟩,
  ⟨"UNPK", maskL, 0x23, readL .unpk⟩,
  ⟨"LDBE", maskL, 0x24, readL .ldbe⟩,
  ⟨"SAMP", maskL, 0x30, readL .samp⟩]

/-- `cmd & mask = match` (R96). -/
def rowMatches (cmd : Command) (r : Row) : Bool := cmd &&& r.mask == r.pattern

/-! ## Decoding (R98 step 2, R99) -/

/-- Why a 128-bit value is no command (R99); each is the fault `IllegalCommand` (R202). -/
inductive Reject where
  /-- The opcode is none of the twelve of R95. -/
  | unknownOpcode
  /-- A known opcode with a must-be-zero bit set, the top bit of a used register field among them (R93, R96). -/
  | reservedBitSet
  deriving DecidableEq, Repr

/-- The opcode byte is one of the twelve of R95. -/
def knownOpcode (cmd : Command) : Bool := opcodeTable.any fun r => cmdField cmd 0 8 == r.pattern.toNat

/-- The instruction of the row that matches, or why none does (R98 step 2, R99). Total on all 128-bit values. -/
def decode (cmd : Command) : Except Reject Instr :=
  match opcodeTable.find? (rowMatches cmd) with
  | some r => .ok (r.read cmd)
  | none => .error (if knownOpcode cmd then .reservedBitSet else .unknownOpcode)

/-- `decode` on a row's bits as `spec/opcode_table.json` numbers them. A command is one 128-bit value and its
words have no memory layout (R90), so the number `w` is the command. -/
def decodeTableWord (nbits w : Nat) : Option Instr :=
  match decode (BitVec.ofNat 128 (w % 2 ^ nbits)) with
  | .ok i => some i
  | .error _ => none

/-! ## Encoding (R91, R92, R95) -/

/-- A command from its fields, the first the most significant: `len`, `addr`, `n2`, `n1`, zero, `mc`, `mb`,
`ma`, `md`, `opcode` (R91). -/
def assembleFields (opcode md ma mb mc n1 n2 addr len : Nat) : Command :=
  BitVec.ofNat 32 len ++ BitVec.ofNat 32 addr ++ BitVec.ofNat 16 n2 ++ BitVec.ofNat 16 n1 ++ 0#8 ++
    BitVec.ofNat 4 mc ++ BitVec.ofNat 4 mb ++ BitVec.ofNat 4 ma ++ BitVec.ofNat 4 md ++ BitVec.ofNat 8 opcode

/-- Format L: `md`, `n1`, `n2`, `addr`, `len` (R92). -/
def encodeL (opcode : Nat) (md : MReg) (n1 n2 addr len : Nat) : Command :=
  assembleFields opcode md.val 0 0 0 n1 n2 addr len

/-- Format S: `ma`, `addr`, `len` (R92). -/
def encodeS (opcode : Nat) (ma : MReg) (addr len : Nat) : Command :=
  assembleFields opcode 0 ma.val 0 0 0 0 addr len

/-- Formats A3 and A4: `md`, `ma`, `mb`, `mc` (R92); `mc` is 0 in format A3. -/
def encodeA (opcode : Nat) (md ma mb mc : MReg) : Command :=
  assembleFields opcode md.val ma.val mb.val mc.val 0 0 0 0

/-- The command of a well-formed instruction. -/
def encode : Instr → Command
  | .nop => assembleFields 0x01 0 0 0 0 0 0 0 0
  | .csrw csr value => assembleFields 0x02 0 0 0 0 csr 0 value 0
  | .mclr md => assembleFields 0x03 md.val 0 0 0 0 0 0 0
  | .madd md ma mb => encodeA 0x10 md ma mb 0
  | .msub md ma mb => encodeA 0x11 md ma mb 0
  | .mmac md ma mb mc => encodeA 0x12 md ma mb mc
  | .enc md n1 n2 addr len => encodeL 0x20 md n1 n2 addr len
  | .dec ma addr len => encodeS 0x21 ma addr len
  | .pack ma addr len => encodeS 0x22 ma addr len
  | .unpk md n1 n2 addr len => encodeL 0x23 md n1 n2 addr len
  | .ldbe md n1 n2 addr len => encodeL 0x24 md n1 n2 addr len
  | .samp md n1 n2 addr len => encodeL 0x30 md n1 n2 addr len

end Sys2Proof
end

