-- ==== Sys2Proof/Machine/Bits.lean ====
section
/-! DEFINITION. The bit and number helpers: bit strings with their first bit most significant (R10, R60), and
reduction modulo `q` (R121). -/

namespace Sys2Proof.Machine

/-- The `w`-bit unsigned integer of the string bits `p, …, p + w - 1`, its most significant bit the string bit
`p`: `sum over t in [0, w) of bit (p + t) · 2^(w-1-t)` (R10). -/
def bitsValue (bit : Nat → Bool) (p : Nat) : Nat → Nat
  | 0 => 0
  | w + 1 => 2 * bitsValue bit p w + (bit (p + w)).toNat

/-- String bit `p` of a dense sequence of `w`-bit values: bit `w - 1 - t` of value `g`, for `p = g·w + t`
(R62, R145, R148). -/
def packedBit (w : Nat) (value : Nat → Nat) (p : Nat) : Bool := (value (p / w)).testBit (w - 1 - p % w)

/-- The first `n` bytes of a bit string: string bit `p` is bit `7 - (p mod 8)` of byte `p div 8` (R10). -/
def bytesOfBits (bit : Nat → Bool) (n : Nat) : List Byte :=
  (List.range n).map fun j => BitVec.ofNat 8 (bitsValue bit (8 * j) 8)

/-- `reduce(v) = v mod 2^D`, the non-negative residue, held in 16 bits (R121, R125, R8); for `v ≥ 0` it is
`v & (2^D - 1)`. -/
def reduce (d : Nat) (v : Int) : Entry := BitVec.ofInt 16 (v % ((2 ^ d : Nat) : Int))

/-- `be16(b0, b1)`, `b0` the byte at the lower address (R11, R61). -/
def be16 (b0 b1 : Byte) : Nat := b0.toNat * 256 + b1.toNat

end Sys2Proof.Machine
end

