-- ==== Sys2Proof/Config.lean ====
section
/-! DEFINITION. What an implementation fixes (`BUF_BYTES`, R6) and the one free value of the spec (the
bytes of `BUF` after a reset, R232). -/

namespace Sys2Proof

/-- The open parameters of one engine (R6): `BUF_BYTES`, the size of the buffer memory in bytes. It is an
argument of the model, fixed for a machine; `State` carries it and no step changes it
(DESIGN CHOICE, log 5). -/
structure Params where
  /-- `BUF_BYTES`, legal in `1 ≤ BUF_BYTES ≤ 2^32` (R6, S2). -/
  bufBytes : Nat
  deriving DecidableEq, Repr

/-- The range R6 gives `BUF_BYTES`. -/
abbrev Params.Wf (p : Params) : Prop := 1 ≤ p.bufBytes ∧ p.bufBytes ≤ 2 ^ 32

/-- The default of R6: 4194304 bytes. -/
def Params.standard : Params := ⟨4194304⟩

/-- The byte that `BUF[a]` holds after reset number `n`, while nothing has written it: "a free choice made
at the reset (a draw), one value per byte, which then stays fixed" (R232, S1). A FREE VALUE: it has no
body, so no proof can use a value of it (log 3). -/
opaque Config.bufDraw : (n : Nat) → (a : Nat) → Byte

end Sys2Proof
end

