-- ==== Sys2Proof/Machine/State.lean ====
section
/-! DEFINITION. The state of one engine (R21), the host transactions of a run (R50 to R54), the outcomes of a
step, and the state after reset (R47). -/

namespace Sys2Proof.Machine

/-- The value of a non-`Empty` matrix register: a shape and the entries, row-major (R24, R12): entry `(r, c)`
is `entries[r * cols + c]`. -/
structure Mat where
  rows : Nat
  cols : Nat
  entries : List Entry
  deriving DecidableEq, Repr

/-- `BUF` as plain data: the bytes that something has written since the last reset, each with its address. An
address not listed has not been written (log 4). -/
abbrev Memory := List Host.Cell

/-- The faults of the engine (R201). Each is an ordinary next state of the machine, by `raise`. -/
inductive EngineFault where
  | dimensionMismatch
  | insufficientRandomness
  | malformedCiphertext
  | illegalCommand
  | badConfig
  | badDimension
  | badLength
  | addressRange
  | emptyRegister
  deriving DecidableEq, Repr

/-- The transactions of the host (R50 to R54, R243). -/
inductive Transaction where
  /-- `Issue(cmd)` (R50). -/
  | issue (cmd : Command)
  /-- `CsrRead(index)` (R51). -/
  | csrRead (index : BitVec 16)
  /-- `BufWrite(a, v)` (R52). -/
  | bufWrite (a : Word) (v : Byte)
  /-- `BufRead(a)` (R53). -/
  | bufRead (a : Word)
  /-- `Reset` between commands (R54, R230). -/
  | reset
  /-- `Reset` arriving while the engine is inside the command `cmd` (R54, R219). -/
  | resetDuring (cmd : Command)
  deriving DecidableEq, Repr

/-- What the host gets back from a transaction (R51 to R53, R243). -/
inductive Reply where
  /-- The 32-bit value of a CSR (R51). -/
  | word (v : Word)
  /-- The byte of a `BufRead` (R53). -/
  | byte (v : Byte)
  /-- The error response to a `BufRead` or `BufWrite` with `a ≥ BUF_BYTES` (R52, R53). -/
  | error
  deriving DecidableEq, Repr

/-- The whole state. The first ten fields are the architectural state, complete by R21; the last four are the
model's own: the parameter `BUF_BYTES`, the number of the current draw of `BUF`, the host transactions still
to come, and the answer to the last one. -/
structure State where
  /-- `m[0]` to `m[7]`; `none` is `Empty` (R24). -/
  m : Vector (Option Mat) 8
  /-- `csr[D]`, `log2(q)` (R31). -/
  d : BitVec 5
  /-- `csr[B]` (R32). -/
  b : BitVec 5
  /-- `csr[K]` (R33). -/
  k : BitVec 5
  /-- `csr[X_0]` to `csr[X_15]` (R34). -/
  x : Vector (BitVec 15) 16
  /-- The sticky fault flag (R36). -/
  fault : Bool
  /-- `csr[ERRCODE]` (R37). -/
  errcode : Byte
  /-- `csr[ERRSEQ]` (R38). -/
  errseq : Word
  /-- `csr[CSEQ]` (R39). -/
  cseq : Word
  /-- The written bytes of `BUF` (R44). -/
  buf : Memory
  /-- `BUF_BYTES` (R6): a parameter, changed by no step (log 5). -/
  params : Params
  /-- Which draw the unwritten bytes of `BUF` are: the number of resets taken (R232, log 3). -/
  resets : Nat
  /-- The host transactions still to come, the next first (R22, log 1). -/
  port : List Transaction
  /-- What the host got back from the last transaction (log 2). -/
  reply : Option Reply
  deriving DecidableEq, Repr

/-- Reasons to stop. There are none: every fault of the engine has an entry the spec describes (R203) and is a
next state, and every host transaction has an answer (R50 to R54), so no step of this machine stops (log 9). -/
inductive Fault
  deriving DecidableEq, Repr

/-- Reasons to refuse an instruction. -/
inductive Refusal where
  /-- Raised by `exec` for a command that has no meaning yet; no arm does so. Safe. -/
  | notModelled (mnemonic : String)
  deriving DecidableEq, Repr

/-- The outcome of a step or of a command. -/
abbrev Result := Host.Outcome State Fault Refusal

/-- The machine right after reset (R47, R230): all registers `Empty`, all CSRs 0, nothing of `BUF` written, no
transaction pending. The values of the model's own fields are DESIGN CHOICES (logs 1, 2, 3, 5). -/
def State.reset : State where
  m := Vector.replicate 8 none
  d := 0
  b := 0
  k := 0
  x := Vector.replicate 16 0
  fault := false
  errcode := 0
  errseq := 0
  cseq := 0
  buf := []
  params := Params.standard
  resets := 0
  port := []
  reply := none

end Sys2Proof.Machine
end

