-- ==== Sys2Proof/Machine/Ops.lean ====
section
/-! DEFINITION. The named operations: matrices (R12), the memory list, `BUF` bytes and fields (R10, R11), matrix
registers (R24), the end of a command (R98 step 5), fault entry (R203) and, in place of a return from it, reset
(R206, R54). -/

namespace Sys2Proof.Machine

/-! ## Matrices -/

/-- The entry with linear index `g` (R12). -/
def Mat.at (M : Mat) (g : Nat) : Entry := M.entries.getD g 0

/-- `M[r][c]`, linear index `r · cols + c` (R12). -/
def Mat.entry (M : Mat) (r c : Nat) : Entry := M.at (r * M.cols + c)

/-- The `n1 × n2` matrix whose entry `(r, c)` is `f r c` ("for all (r, c): R[r][c] <- f r c", R11). -/
def Mat.ofFn (n1 n2 : Nat) (f : Nat → Nat → Entry) : Mat where
  rows := n1
  cols := n2
  entries := (List.range (n1 * n2)).map fun g => f (g / n2) (g % n2)

/-- Same `rows` and same `cols` (R122). -/
abbrev Mat.SameShape (A B : Mat) : Prop := A.rows = B.rows ∧ A.cols = B.cols

/-! ## The memory list -/

/-- The byte written at `a`, if one is listed. -/
def Memory.lookup : Memory → Nat → Option Byte
  | [], _ => none
  | c :: rest, a => if c.1 = a then some c.2 else Memory.lookup rest a

/-- List the byte `v` at `a`, in the place of the byte listed there before, if any. -/
def Memory.write : Memory → Nat → Byte → Memory
  | [], a, v => [(a, v)]
  | c :: rest, a, v =>
    if a < c.1 then (a, v) :: c :: rest
    else if a = c.1 then (a, v) :: rest
    else c :: Memory.write rest a v

/-- `MemWrite(addr, n, bytes)` of R11, on the list. -/
def Memory.writeBytes (mem : Memory) (addr : Nat) : List Byte → Memory
  | [] => mem
  | v :: rest => Memory.writeBytes (Memory.write mem addr v) (addr + 1) rest

/-- The canonical form: addresses strictly rising (log 4). -/
abbrev Memory.wf (mem : Memory) : Prop := mem.Pairwise fun c c' => c.1 < c'.1

/-! ## `BUF` -/

/-- `BUF[a]`: the byte written last, or the draw of the last reset while nothing has written it (R44, R232). -/
def State.bufByte (s : State) (a : Nat) : Byte := (Memory.lookup s.buf a).getD (Config.bufDraw s.resets a)

/-- `MemWrite(addr, n, bytes)` (R11). -/
def State.writeBuf (s : State) (addr : Nat) (bytes : List Byte) : State :=
  { s with buf := Memory.writeBytes s.buf addr bytes }

/-- `BufBit(a, p) = (BUF[a + (p div 8)] >> (7 - (p mod 8))) & 1` (R10). -/
def State.bufBit (s : State) (a p : Nat) : Bool := (s.bufByte (a + p / 8)).getLsbD (7 - p % 8)

/-- `BitField(a, p, w)` (R10). -/
def State.bitField (s : State) (a p w : Nat) : Nat := bitsValue (s.bufBit a) p w

/-- The big-endian 16-bit chunk of entry `g`: the bytes at `addr + 2g` and `addr + 2g + 1` (R61). -/
def State.chunk (s : State) (addr g : Nat) : Nat :=
  be16 (s.bufByte (addr + 2 * g)) (s.bufByte (addr + 2 * g + 1))

/-! ## Registers -/

/-- `m[i]` (R11). -/
def State.reg (s : State) (i : MReg) : Option Mat := s.m[i]

/-- `m[i] <- v`, shape and entries at once (R11, R24). -/
def State.setReg (s : State) (i : MReg) (v : Option Mat) : State := { s with m := s.m.set i v }

/-- All eight matrix registers become `Empty` (R31). -/
def State.clearRegs (s : State) : State := { s with m := Vector.replicate 8 none }

/-! ## CSRs and the port: one named update for each field a command or a transaction writes -/

/-- `csr[D] <- v` (R31). -/
def State.setD (s : State) (v : BitVec 5) : State := { s with d := v }

/-- `csr[B] <- v` (R32). -/
def State.setB (s : State) (v : BitVec 5) : State := { s with b := v }

/-- `csr[K] <- v` (R33). -/
def State.setK (s : State) (v : BitVec 5) : State := { s with k := v }

/-- `csr[X_i] <- v` (R34). -/
def State.setX (s : State) (i : Fin 16) (v : BitVec 15) : State := { s with x := s.x.set i v }

/-- The host gets `r` back from its transaction (R51 to R53). -/
def State.answer (s : State) (r : Reply) : State := { s with reply := some r }

/-- The host's next transaction is taken, `rest` are the ones after it (R75). -/
def State.accept (s : State) (rest : List Transaction) : State := { s with port := rest, reply := none }

/-- The host's next transaction is the issue of `cmd` (R50). -/
def State.issueNext (s : State) (cmd : Command) : State := { s with port := .issue cmd :: s.port }

/-! ## The end of a command -/

/-- `CSEQ <- (CSEQ + 1) mod 2^32`, the end of every completed command (R39, R98 step 5). -/
def State.count (s : State) : State := { s with cseq := s.cseq + 1 }

/-- A command that completed, with its effects in `s` (R98 step 5). -/
def complete (s : State) : Result := .next s.count

/-- The code of a fault (R201). -/
def EngineFault.code : EngineFault → Byte
  | .dimensionMismatch => 1
  | .insufficientRandomness => 2
  | .malformedCiphertext => 3
  | .illegalCommand => 4
  | .badConfig => 5
  | .badDimension => 6
  | .badLength => 7
  | .addressRange => 8
  | .emptyRegister => 9

/-- Fault entry: `ERRCODE`, `ERRSEQ` and `FAULT` are written and nothing else (R203). -/
def State.takeFault (s : State) (f : EngineFault) : State :=
  { s with errcode := f.code, errseq := s.cseq, fault := true }

/-- `raise F`: the command ends here, as a next state (R11, R203). -/
def raise (f : EngineFault) (s : State) : Result := .next (s.takeFault f)

/-! There is no return from a fault (R206): no command and no CSR write clears `FAULT`. Only `Reset` does. -/

/-- `Reset` (R54, R230): the state of R47, with a fresh draw of every byte of `BUF` (R232). The parameter stays,
and the host's further transactions and what it gets back are no part of the engine. -/
def State.afterReset (s : State) : State :=
  { State.reset with params := s.params, resets := s.resets + 1, port := s.port, reply := s.reply }

end Sys2Proof.Machine
end

