-- ==== Sys2Proof/Machine/Operands.lean ====
section
/-! DEFINITION. Operands and the checks on them (R94, R208 to R212): parameters in use, dimensions, `BUF` regions,
and the three operand forms of the data commands: register sources, format L (load a new matrix from a region)
and format S (store a register's matrix to a region), each with its checks in the order of R210. -/

namespace Sys2Proof.Machine

/-- `log2(q)` as a number: `q = 2^s.logQ` (R11, R31). -/
def State.logQ (s : State) : Nat := s.d.toNat

/-- `D` in `[1, 16]` (R208). -/
abbrev State.DReady (s : State) : Prop := 1 ≤ s.d.toNat ∧ s.d.toNat ≤ 16

/-- `1 ≤ B ≤ D`, checked where `B` is used (R32, R208). -/
abbrev State.BReady (s : State) : Prop := 1 ≤ s.b.toNat ∧ s.b.toNat ≤ s.d.toNat

/-- `K` in `[1, 16]` (R33, R173). -/
abbrev State.KReady (s : State) : Prop := 1 ≤ s.k.toNat ∧ s.k.toNat ≤ 16

/-- A dimension is 1 to 1344 (R94, R211; `DIM_MAX` of R6). -/
abbrev DimOk (n : Nat) : Prop := 1 ≤ n ∧ n ≤ 1344

/-- The region `[addr, addr + len)` lies inside `BUF`; the sum does not wrap (R66, R209). -/
abbrev State.RegionOk (s : State) (addr len : Nat) : Prop := addr + len ≤ s.params.bufBytes

/-- Entry-wise commands: two register sources of one shape (R122, R128, R129). -/
def entrywise (op : Nat → Mat → Mat → Mat) (md ma mb : MReg) (s : State) : Result :=
  if ¬ s.DReady then raise .badConfig s
  else match s.reg ma, s.reg mb with
    | some A, some Bm =>
      if ¬ A.SameShape Bm then raise .dimensionMismatch s
      else complete (s.setReg md (some (op s.logQ A Bm)))
    | _, _ => raise .emptyRegister s

/-- Format L: `m[md]` becomes the `n1 × n2` matrix whose entry with linear index `g` is `entry g`. `ready` is the
configuration the command needs, `lengthOk` its length check and `lengthFault` the fault of that check (R92, R210). -/
def loadMat (ready lengthOk : Bool) (lengthFault : EngineFault) (entry : Nat → Entry)
    (md : MReg) (n1 n2 addr len : Nat) (s : State) : Result :=
  if ready = false then raise .badConfig s
  else if ¬ (DimOk n1 ∧ DimOk n2) then raise .badDimension s
  else if lengthOk = false then raise lengthFault s
  else if ¬ s.RegionOk addr len then raise .addressRange s
  else complete (s.setReg md (some (Mat.ofFn n1 n2 fun r c => entry (r * n2 + c))))

/-- Format S: the region receives the dense string of the `w`-bit values of the entries of `m[ma]`, in row-major
order; `value` is what is written for an entry (R92, R62, R210). -/
def storeMat (ready : Bool) (w : Nat) (value : Entry → Nat) (ma : MReg) (addr len : Nat) (s : State) : Result :=
  if ready = false then raise .badConfig s
  else match s.reg ma with
    | none => raise .emptyRegister s
    | some M =>
      if 8 * len ≠ w * M.rows * M.cols then raise .badLength s
      else if ¬ s.RegionOk addr len then raise .addressRange s
      else complete (s.writeBuf addr (bytesOfBits (packedBit w fun g => value (M.at g)) len))

end Sys2Proof.Machine
end

