-- ==== Sys2Proof/Machine/Arithmetic.lean ====
section
/-! DEFINITION. The arithmetic commands `MADD`, `MSUB`, `MMAC` over `Z_q` (R120 to R130). Every entry is computed as
an exact integer from the old values of the sources and reduced once (R121, R124, R28). -/

namespace Sys2Proof.Machine

/-- `(A + B) mod q`, entry by entry (R128). -/
def matAdd (d : Nat) (A B : Mat) : Mat :=
  Mat.ofFn A.rows A.cols fun r c => reduce d ((A.entry r c).toNat + (B.entry r c).toNat)

/-- `(A - B + q) mod q`, entry by entry (R129, R125). -/
def matSub (d : Nat) (A B : Mat) : Mat :=
  Mat.ofFn A.rows A.cols fun r c => reduce d ((A.entry r c).toNat - (B.entry r c).toNat + (2 ^ d : Nat))

/-- The sum over `k` in `[0, n)` of `A[r][k] · B[k][c]`, an exact integer (R124). -/
def dotProduct (A B : Mat) (r c : Nat) : Nat → Nat
  | 0 => 0
  | n + 1 => dotProduct A B r c n + (A.entry r n).toNat * (B.entry n c).toNat

/-- `(A·B + E) mod q` (R130). -/
def matMulAdd (d : Nat) (A B E : Mat) : Mat :=
  Mat.ofFn A.rows B.cols fun r c => reduce d ((E.entry r c).toNat + dotProduct A B r c A.cols)

/-- `MADD md, ma, mb` (R128). -/
def execMadd (md ma mb : MReg) (s : State) : Result := entrywise matAdd md ma mb s

/-- `MSUB md, ma, mb` (R129). -/
def execMsub (md ma mb : MReg) (s : State) : Result := entrywise matSub md ma mb s

/-- The shapes of `ma·mb + mc` fit (R122). -/
abbrev MulShapes (A B E : Mat) : Prop := A.cols = B.rows ∧ E.rows = A.rows ∧ E.cols = B.cols

/-- `MMAC md, ma, mb, mc` (R130). -/
def execMmac (md ma mb mc : MReg) (s : State) : Result :=
  if ¬ s.DReady then raise .badConfig s
  else match s.reg ma, s.reg mb, s.reg mc with
    | some A, some Bm, some E =>
      if ¬ MulShapes A Bm E then raise .dimensionMismatch s
      else complete (s.setReg md (some (matMulAdd s.logQ A Bm E)))
    | _, _, _ => raise .emptyRegister s

end Sys2Proof.Machine
end

