-- ==== Sys2Proof/Machine/Codec.lean ====
section
/-! DEFINITION. The codec commands `ENC`, `DEC`, `PACK`, `UNPK` and the integer codec `ec`, `dc` (R141 to R151). -/

namespace Sys2Proof.Machine

/-- `ec(k) = (k << (D - B)) & (q - 1)` (R141). -/
def ec (d b k : Nat) : Entry := reduce d ((k <<< (d - b) : Nat) : Int)

/-- `dc(c)`: the nearest multiple count of `2^(D-B)`, ties up, reduced to `B` bits; `c` itself for `B = D` (R142;
UNVERIFIED against FrodoKEM itself, log 12). -/
def dc (d b c : Nat) : Nat :=
  if 1 ≤ d - b then ((c + 2 ^ (d - b - 1)) >>> (d - b)) &&& (2 ^ b - 1)
  else c &&& (2 ^ b - 1)

/-- `ENC md, n1, n2, addr, len` (R146). -/
def execEnc (md : MReg) (n1 n2 addr len : Nat) (s : State) : Result :=
  loadMat (ready := decide (s.DReady ∧ s.BReady)) (lengthOk := 8 * len == s.b.toNat * n1 * n2)
    (lengthFault := .badLength)
    (entry := fun g => ec s.logQ s.b.toNat (s.bitField addr (g * s.b.toNat) s.b.toNat)) md n1 n2 addr len s

/-- `DEC ma, addr, len` (R147). -/
def execDec (ma : MReg) (addr len : Nat) (s : State) : Result :=
  storeMat (ready := decide (s.DReady ∧ s.BReady)) (w := s.b.toNat)
    (value := fun c => dc s.logQ s.b.toNat c.toNat) ma addr len s

/-- `PACK ma, addr, len` (R150). -/
def execPack (ma : MReg) (addr len : Nat) (s : State) : Result :=
  storeMat (ready := decide s.DReady) (w := s.logQ) (value := fun c => c.toNat) ma addr len s

/-- `UNPK md, n1, n2, addr, len` (R151). -/
def execUnpk (md : MReg) (n1 n2 addr len : Nat) (s : State) : Result :=
  loadMat (ready := decide s.DReady) (lengthOk := 8 * len == s.logQ * n1 * n2)
    (lengthFault := .malformedCiphertext)
    (entry := fun g => BitVec.ofNat 16 (s.bitField addr (g * s.logQ) s.logQ)) md n1 n2 addr len s

end Sys2Proof.Machine
end

