-- ==== Sys2Proof/Machine/Flags.lean ====
section
/-! DEFINITION. Flags. The engine has no condition codes and no arithmetic flags (R42): the only flag is
`FAULT`, set by `raise` and read at the start of every command by `issue`. Here are the word it is read in,
`STATUS`, and the other read-only views (R35, R36, R40), and the CSR map (R30). -/

namespace Sys2Proof.Machine

/-- `BUSY` as the host sees it: between commands, when every host transaction of the model happens, it is 0
(R36, S3; log 6). -/
def State.busy (_s : State) : Bool := false

/-- `STATUS`: bit 0 `BUSY`, bit 1 `FAULT`, bits 31 to 2 zero (R36). -/
def State.status (s : State) : Word := 0#30 ++ BitVec.ofBool s.fault ++ BitVec.ofBool s.busy

/-- `QMASK`: `2^D - 1` when `D` is in `[1, 16]` and 0 when `D = 0` (R35); `2^0 - 1 = 0`. -/
def State.qmask (s : State) : Word := BitVec.ofNat 32 (2 ^ s.d.toNat - 1)

/-- `MSHAPE_i`: 0 when `m[i]` is `Empty`, else bit 31 `VALID`, bits 26 to 16 `rows`, bits 10 to 0 `cols` (R40). -/
def State.mshape (s : State) (i : MReg) : Word :=
  match s.reg i with
  | none => 0
  | some M => 1#1 ++ 0#4 ++ BitVec.ofNat 11 M.rows ++ 0#5 ++ BitVec.ofNat 11 M.cols

/-- The CSRs of the table of R30. -/
inductive Csr where
  | d
  | b
  | k
  | qmask
  | status
  | errcode
  | errseq
  | cseq
  | x (i : Fin 16)
  | mshape (i : MReg)
  deriving DecidableEq, Repr

/-- The CSR with an index; `none` for a reserved index (R30, R41). -/
def csrAt (index : Nat) : Option Csr :=
  if index = 0x0000 then some .d
  else if index = 0x0001 then some .b
  else if index = 0x0002 then some .k
  else if index = 0x0003 then some .qmask
  else if index = 0x0008 then some .status
  else if index = 0x0009 then some .errcode
  else if index = 0x000A then some .errseq
  else if index = 0x000B then some .cseq
  else if 0x0010 ≤ index ∧ index ≤ 0x001F then some (.x (Fin.ofNat 16 (index - 0x0010)))
  else if 0x0020 ≤ index ∧ index ≤ 0x0027 then some (.mshape (Fin.ofNat 8 (index - 0x0020)))
  else none

/-- The 32-bit value of a CSR, every bit above its own width zero (R30). -/
def State.csrValue (s : State) : Csr → Word
  | .d => s.d.zeroExtend 32
  | .b => s.b.zeroExtend 32
  | .k => s.k.zeroExtend 32
  | .qmask => s.qmask
  | .status => s.status
  | .errcode => s.errcode.zeroExtend 32
  | .errseq => s.errseq
  | .cseq => s.cseq
  | .x i => (s.x[i]).zeroExtend 32
  | .mshape i => s.mshape i

/-- What `CsrRead(index)` returns; a reserved index reads 0 (R41, R51). -/
def State.csrRead (s : State) (index : Nat) : Word :=
  match csrAt index with
  | some c => s.csrValue c
  | none => 0

end Sys2Proof.Machine
end

