-- ==== Sys2Proof/Machine/Control.lean ====
section
/-! DEFINITION. The control and load commands: `NOP`, `CSRW`, `MCLR`, `LDBE` (R185 to R188). -/

namespace Sys2Proof.Machine

/-- `NOP` does nothing but count (R185). -/
def execNop (s : State) : Result := complete s

/-- The legal written values of `D`, `B` and `K` (R30). -/
abbrev ParamValueOk (value : Nat) : Prop := 1 ≤ value ∧ value ≤ 16

/-- `CSRW csr, value` (R186): the index first, then the whole value; a write of `D` empties every matrix register,
also when the value does not change (R31). -/
def execCsrw (csr value : Nat) (s : State) : Result :=
  match csrAt csr with
  | some .d =>
    if ParamValueOk value then complete (s.clearRegs.setD (BitVec.ofNat 5 value)) else raise .badConfig s
  | some .b => if ParamValueOk value then complete (s.setB (BitVec.ofNat 5 value)) else raise .badConfig s
  | some .k => if ParamValueOk value then complete (s.setK (BitVec.ofNat 5 value)) else raise .badConfig s
  | some (.x i) =>
    if value ≤ 32767 then complete (s.setX i (BitVec.ofNat 15 value)) else raise .badConfig s
  | some .qmask => raise .illegalCommand s
  | some .status => raise .illegalCommand s
  | some .errcode => raise .illegalCommand s
  | some .errseq => raise .illegalCommand s
  | some .cseq => raise .illegalCommand s
  | some (.mshape _) => raise .illegalCommand s
  | none => raise .illegalCommand s

/-- `MCLR md` makes the register `Empty` (R187). -/
def execMclr (md : MReg) (s : State) : Result := complete (s.setReg md none)

/-- `LDBE md, n1, n2, addr, len`: big-endian 16-bit chunks, masked with `q - 1` (R188). -/
def execLdbe (md : MReg) (n1 n2 addr len : Nat) (s : State) : Result :=
  loadMat (ready := decide s.DReady) (lengthOk := len == 2 * n1 * n2) (lengthFault := .badLength)
    (entry := fun g => reduce s.logQ (s.chunk addr g)) md n1 n2 addr len s

end Sys2Proof.Machine
end

