-- ==== Sys2Proof/Machine/Sampler.lean ====
section
/-! DEFINITION. The sampler command `SAMP` (R171 to R173). -/

namespace Sys2Proof.Machine

/-- `e`: the number of thresholds strictly below `t`, every one of them counted (R171). -/
def magnitude (thresholds : List (BitVec 15)) (t : Nat) : Nat := thresholds.countP fun x => x.toNat < t

/-- `sample(r)` (R171): the sign is bit 0 of `r`, the other 15 bits are compared; the result is masked with `q - 1`
(C6), so that `q - e` is taken modulo `q` also when `e > q`. -/
def sample (d : Nat) (thresholds : List (BitVec 15)) (r : Nat) : Entry :=
  let e := magnitude thresholds (r >>> 1)
  if r % 2 = 1 ∧ e ≠ 0 then reduce d (((2 ^ d : Nat) : Int) - e) else reduce d e

/-- The thresholds in use, `X_0 .. X_{K-1}` (R33, R34). -/
def State.thresholds (s : State) : List (BitVec 15) := s.x.toList.take s.k.toNat

/-- `SAMP md, n1, n2, addr, len` (R173): surplus bytes are allowed and not read. -/
def execSamp (md : MReg) (n1 n2 addr len : Nat) (s : State) : Result :=
  loadMat (ready := decide (s.DReady ∧ s.KReady)) (lengthOk := decide (2 * n1 * n2 ≤ len))
    (lengthFault := .insufficientRandomness)
    (entry := fun g => sample s.logQ s.thresholds (s.chunk addr g)) md n1 n2 addr len s

end Sys2Proof.Machine
end

