-- ==== Sys2Proof/Machine/Dispatch.lean ====
section
/-! DEFINITION. The meaning of every command: the checks, the execution and the count of R98, steps 3 to 5. -/

namespace Sys2Proof.Machine

/-- One arm per command (R97). Whether the command is taken up at all (R98 steps 1 and 2) is `issue`'s concern. -/
def exec (i : Instr) (s : State) : Host.Outcome State Fault Refusal :=
  match i with
  | .nop => Sys2Proof.Machine.execNop s
  | .csrw csr value => Sys2Proof.Machine.execCsrw csr value s
  | .mclr md => Sys2Proof.Machine.execMclr md s
  | .madd md ma mb => Sys2Proof.Machine.execMadd md ma mb s
  | .msub md ma mb => Sys2Proof.Machine.execMsub md ma mb s
  | .mmac md ma mb mc => Sys2Proof.Machine.execMmac md ma mb mc s
  | .enc md n1 n2 addr len => Sys2Proof.Machine.execEnc md n1 n2 addr len s
  | .dec ma addr len => Sys2Proof.Machine.execDec ma addr len s
  | .pack ma addr len => Sys2Proof.Machine.execPack ma addr len s
  | .unpk md n1 n2 addr len => Sys2Proof.Machine.execUnpk md n1 n2 addr len s
  | .ldbe md n1 n2 addr len => Sys2Proof.Machine.execLdbe md n1 n2 addr len s
  | .samp md n1 n2 addr len => Sys2Proof.Machine.execSamp md n1 n2 addr len s

end Sys2Proof.Machine
end

