-- ==== Sys2Proof/Machine/Port.lean ====
section
/-! DEFINITION. The host port: what each transaction does to the engine (R50 to R54, R243). -/

namespace Sys2Proof.Machine

/-- `Issue(cmd)` (R50, R98): discarded while `FAULT = 1` (R205); else decoded, a value that matches no row raising
`IllegalCommand` (R202), and executed. -/
def issue (cmd : Command) (s : State) : Result :=
  if s.fault then .next s
  else match decode cmd with
    | .error _ => raise .illegalCommand s
    | .ok i => exec i s

/-- `CsrRead(index)`: the value goes to the host; nothing else happens (R51). -/
def hostCsrRead (index : BitVec 16) (s : State) : State := s.answer (.word (s.csrRead index.toNat))

/-- `BufWrite(a, v)`: one byte, refused with an error response outside `BUF` (R52). -/
def hostBufWrite (a : Word) (v : Byte) (s : State) : State :=
  if s.RegionOk a.toNat 1 then s.writeBuf a.toNat [v] else s.answer .error

/-- `BufRead(a)`: one byte, refused with an error response outside `BUF` (R53). -/
def hostBufRead (a : Word) (s : State) : State :=
  s.answer (if s.RegionOk a.toNat 1 then .byte (s.bufByte a.toNat) else .error)

/-- One host transaction. A reset inside a command wins: the command's effects are lost, and `BUF` is drawn
afresh whether or not the command had written part of it, so the state is that of any reset (R54, R219, log 7). -/
def transact (t : Transaction) (s : State) : Result :=
  match t with
  | .issue cmd => issue cmd s
  | .csrRead index => .next (hostCsrRead index s)
  | .bufWrite a v => .next (hostBufWrite a v s)
  | .bufRead a => .next (hostBufRead a s)
  | .reset => .next s.afterReset
  | .resetDuring _ => .next s.afterReset

/-- The engine takes the next transaction the host makes, in the host's order (R75); while there is none it
waits with all its state held (R223, R233, log 8). -/
def takeNext (s : State) : Result :=
  match s.port with
  | [] => .next s
  | t :: rest => transact t (s.accept rest)

end Sys2Proof.Machine
end

