-- ==== Sys2Proof/Machine/Step.lean ====
section
/-! DEFINITION. One step of the machine: one host transaction (R75, R98). -/

namespace Sys2Proof.Machine

/-- One step: the next host transaction is made and answered. -/
def step (s : State) : Host.Outcome State Fault Refusal := takeNext s

/-- `s` with the command whose bits are `w` as the host's next transaction. The engine fetches nothing: a command
comes to it through the port (R29, R50, log 1). -/
def State.withFetchWord (s : State) (nbits w : Nat) : State := s.issueNext (BitVec.ofNat 128 (w % 2 ^ nbits))

end Sys2Proof.Machine
end

