-- ==== Sys2Proof/Safety.lean ====
section
/-! DEFINITION. The terms the claims use: the invariant of the reachable states (R26 and the ranges of R30 to R39),
the faults a command can raise (R216), what a command reads and writes (R27, R67), and the control part of the
state, on which alone checks and footprints may depend (R240). -/

namespace Sys2Proof.Machine

/-- A matrix of legal shape with as many entries as its shape says (R24). -/
abbrev Mat.Wf (M : Mat) : Prop := DimOk M.rows ∧ DimOk M.cols ∧ M.entries.length = M.rows * M.cols

/-- Every entry is below `2^d`, "each in `[0, q)`" (R24, R26). -/
abbrev Mat.Below (M : Mat) (d : Nat) : Prop := ∀ e ∈ M.entries, e.toNat < 2 ^ d

/-- The invariant of the states the engine can reach. -/
structure State.Inv (s : State) : Prop where
  /-- R26: shape, configured `D`, entries below the current `q`. -/
  regs : ∀ i M, s.reg i = some M → s.DReady ∧ M.Wf ∧ M.Below s.logQ
  /-- `D` is 0 or a legal value (R31). -/
  dRange : s.d.toNat ≤ 16
  /-- `B` is 0 or a legal value (R32). -/
  bRange : s.b.toNat ≤ 16
  /-- `K` is 0 or a legal value (R33). -/
  kRange : s.k.toNat ≤ 16
  /-- `ERRCODE` and `ERRSEQ` are 0 while `FAULT = 0` (R37, R38). -/
  unfaulted : s.fault = false → s.errcode = 0 ∧ s.errseq = 0
  /-- While `FAULT = 1`, `ERRCODE` is 1 to 9 (R37), and `ERRSEQ` is `CSEQ`, which no discarded command advances
  (R38, R39). -/
  faulted : s.fault = true → 1 ≤ s.errcode.toNat ∧ s.errcode.toNat ≤ 9 ∧ s.errseq = s.cseq
  /-- The memory list is in canonical form (log 4). -/
  bufForm : Memory.wf s.buf
  /-- Only addresses of `BUF` are listed (R44). -/
  bufInside : ∀ c ∈ s.buf, c.1 < s.params.bufBytes
  /-- `BUF_BYTES` is in its range (R6). -/
  params : s.params.Wf

/-- The faults each command can raise after decode, in check order (R216). -/
def faultsOf : Instr → List EngineFault
  | .nop => []
  | .csrw _ _ => [.illegalCommand, .badConfig]
  | .mclr _ => []
  | .madd _ _ _ => [.badConfig, .emptyRegister, .dimensionMismatch]
  | .msub _ _ _ => [.badConfig, .emptyRegister, .dimensionMismatch]
  | .mmac _ _ _ _ => [.badConfig, .emptyRegister, .dimensionMismatch]
  | .enc _ _ _ _ _ => [.badConfig, .badDimension, .badLength, .addressRange]
  | .dec _ _ _ => [.badConfig, .emptyRegister, .badLength, .addressRange]
  | .pack _ _ _ => [.badConfig, .emptyRegister, .badLength, .addressRange]
  | .unpk _ _ _ _ _ => [.badConfig, .badDimension, .malformedCiphertext, .addressRange]
  | .ldbe _ _ _ _ _ => [.badConfig, .badDimension, .badLength, .addressRange]
  | .samp _ _ _ _ _ => [.badConfig, .badDimension, .insufficientRandomness, .addressRange]

/-! ## Registers and `BUF` bytes a command touches -/

/-- The matrix registers a command reads (R27). -/
def readsReg : Instr → List MReg
  | .nop => []
  | .csrw _ _ => []
  | .mclr _ => []
  | .madd _ ma mb => [ma, mb]
  | .msub _ ma mb => [ma, mb]
  | .mmac _ ma mb mc => [ma, mb, mc]
  | .enc _ _ _ _ _ => []
  | .dec ma _ _ => [ma]
  | .pack ma _ _ => [ma]
  | .unpk _ _ _ _ _ => []
  | .ldbe _ _ _ _ _ => []
  | .samp _ _ _ _ _ => []

/-- The matrix registers a command writes (R27); a `CSRW` to `D` empties all eight. -/
def writesReg : Instr → List MReg
  | .nop => []
  | .csrw csr _ => if csr = 0x0000 then List.finRange 8 else []
  | .mclr md => [md]
  | .madd md _ _ => [md]
  | .msub md _ _ => [md]
  | .mmac md _ _ _ => [md]
  | .enc md _ _ _ _ => [md]
  | .dec _ _ _ => []
  | .pack _ _ _ => []
  | .unpk md _ _ _ _ => [md]
  | .ldbe md _ _ _ _ => [md]
  | .samp md _ _ _ _ => [md]

/-- The `BUF` addresses a command reads when it does not fault: `first ≤ a < first + count` (R67). -/
def readsBuf : Instr → Nat → Prop
  | .nop, _ => False
  | .csrw _ _, _ => False
  | .mclr _, _ => False
  | .madd _ _ _, _ => False
  | .msub _ _ _, _ => False
  | .mmac _ _ _ _, _ => False
  | .enc _ _ _ addr len, a => addr ≤ a ∧ a < addr + len
  | .dec _ _ _, _ => False
  | .pack _ _ _, _ => False
  | .unpk _ _ _ addr len, a => addr ≤ a ∧ a < addr + len
  | .ldbe _ n1 n2 addr _, a => addr ≤ a ∧ a < addr + 2 * n1 * n2
  | .samp _ n1 n2 addr _, a => addr ≤ a ∧ a < addr + 2 * n1 * n2

/-- The `BUF` addresses a command writes when it does not fault (R67). -/
def writesBuf : Instr → Nat → Prop
  | .nop, _ => False
  | .csrw _ _, _ => False
  | .mclr _, _ => False
  | .madd _ _ _, _ => False
  | .msub _ _ _, _ => False
  | .mmac _ _ _ _, _ => False
  | .enc _ _ _ _ _, _ => False
  | .dec _ addr len, a => addr ≤ a ∧ a < addr + len
  | .pack _ addr len, a => addr ≤ a ∧ a < addr + len
  | .unpk _ _ _ _ _, _ => False
  | .ldbe _ _ _ _ _, _ => False
  | .samp _ _ _ _ _, _ => False

/-! ## The checks of a command (R201, R208 to R216) -/

/-- The command needs `D` configured (R31, R208). -/
def usesD : Instr → Bool
  | .nop => false
  | .csrw _ _ => false
  | .mclr _ => false
  | .madd _ _ _ => true
  | .msub _ _ _ => true
  | .mmac _ _ _ _ => true
  | .enc _ _ _ _ _ => true
  | .dec _ _ _ => true
  | .pack _ _ _ => true
  | .unpk _ _ _ _ _ => true
  | .ldbe _ _ _ _ _ => true
  | .samp _ _ _ _ _ => true

/-- The command needs `1 ≤ B ≤ D` (R32, R208). -/
def usesB : Instr → Bool
  | .nop => false
  | .csrw _ _ => false
  | .mclr _ => false
  | .madd _ _ _ => false
  | .msub _ _ _ => false
  | .mmac _ _ _ _ => false
  | .enc _ _ _ _ _ => true
  | .dec _ _ _ => true
  | .pack _ _ _ => false
  | .unpk _ _ _ _ _ => false
  | .ldbe _ _ _ _ _ => false
  | .samp _ _ _ _ _ => false

/-- The command needs `K` configured (R33, R208). -/
def usesK : Instr → Bool
  | .nop => false
  | .csrw _ _ => false
  | .mclr _ => false
  | .madd _ _ _ => false
  | .msub _ _ _ => false
  | .mmac _ _ _ _ => false
  | .enc _ _ _ _ _ => false
  | .dec _ _ _ => false
  | .pack _ _ _ => false
  | .unpk _ _ _ _ _ => false
  | .ldbe _ _ _ _ _ => false
  | .samp _ _ _ _ _ => true

/-- Every parameter register the command uses is usable (R208). -/
abbrev Configured (i : Instr) (s : State) : Prop :=
  (usesD i = true → s.DReady) ∧ (usesB i = true → s.BReady) ∧ (usesK i = true → s.KReady)

/-- The shape `n1 × n2` a format-L command creates (R92). -/
def newShape : Instr → Option (Nat × Nat)
  | .nop => none
  | .csrw _ _ => none
  | .mclr _ => none
  | .madd _ _ _ => none
  | .msub _ _ _ => none
  | .mmac _ _ _ _ => none
  | .enc _ n1 n2 _ _ => some (n1, n2)
  | .dec _ _ _ => none
  | .pack _ _ _ => none
  | .unpk _ n1 n2 _ _ => some (n1, n2)
  | .ldbe _ n1 n2 _ _ => some (n1, n2)
  | .samp _ n1 n2 _ _ => some (n1, n2)

/-- The region `addr`, `len` of a buffer command (R66). -/
def region : Instr → Option (Nat × Nat)
  | .nop => none
  | .csrw _ _ => none
  | .mclr _ => none
  | .madd _ _ _ => none
  | .msub _ _ _ => none
  | .mmac _ _ _ _ => none
  | .enc _ _ _ addr len => some (addr, len)
  | .dec _ addr len => some (addr, len)
  | .pack _ addr len => some (addr, len)
  | .unpk _ _ _ addr len => some (addr, len)
  | .ldbe _ _ _ addr len => some (addr, len)
  | .samp _ _ _ addr len => some (addr, len)

/-- The indices `CSRW` may write (R186). -/
abbrev WritableCsr (csr : Nat) : Prop := csr = 0 ∨ csr = 1 ∨ csr = 2 ∨ (0x0010 ≤ csr ∧ csr ≤ 0x001F)

/-- The legal range of a value written by `CSRW`: 1 to 16 for `D`, `B`, `K`, 0 to 32767 for `X_i` (R30, R186). -/
abbrev LegalValue (csr value : Nat) : Prop := if csr ≤ 2 then 1 ≤ value ∧ value ≤ 16 else value ≤ 32767

/-- The shapes of the sources of an arithmetic command do not fit (R122, R213). -/
def ShapesClash (s : State) : Instr → Prop
  | .madd _ ma mb => ∃ A B, s.reg ma = some A ∧ s.reg mb = some B ∧ (A.rows ≠ B.rows ∨ A.cols ≠ B.cols)
  | .msub _ ma mb => ∃ A B, s.reg ma = some A ∧ s.reg mb = some B ∧ (A.rows ≠ B.rows ∨ A.cols ≠ B.cols)
  | .mmac _ ma mb mc => ∃ A B E, s.reg ma = some A ∧ s.reg mb = some B ∧ s.reg mc = some E ∧
      (A.cols ≠ B.rows ∨ E.rows ≠ A.rows ∨ E.cols ≠ B.cols)
  | .nop => False
  | .csrw _ _ => False
  | .mclr _ => False
  | .enc _ _ _ _ _ => False
  | .dec _ _ _ => False
  | .pack _ _ _ => False
  | .unpk _ _ _ _ _ => False
  | .ldbe _ _ _ _ _ => False
  | .samp _ _ _ _ _ => False

/-- `len` is not the exact length `ENC`, `DEC`, `PACK` or `LDBE` needs (R212). -/
def WrongLength (s : State) : Instr → Prop
  | .enc _ n1 n2 _ len => 8 * len ≠ s.b.toNat * n1 * n2
  | .dec ma _ len => ∃ M, s.reg ma = some M ∧ 8 * len ≠ s.b.toNat * M.rows * M.cols
  | .pack ma _ len => ∃ M, s.reg ma = some M ∧ 8 * len ≠ s.d.toNat * M.rows * M.cols
  | .ldbe _ n1 n2 _ len => len ≠ 2 * n1 * n2
  | .nop => False
  | .csrw _ _ => False
  | .mclr _ => False
  | .madd _ _ _ => False
  | .msub _ _ _ => False
  | .mmac _ _ _ _ => False
  | .unpk _ _ _ _ _ => False
  | .samp _ _ _ _ _ => False

/-- The cause of each fault of a decoded command, as the table of R201 gives it. Several causes may hold at once;
which fault is reported is R210's concern. -/
def Cause (i : Instr) (s : State) : EngineFault → Prop
  | .illegalCommand => ∃ csr value, i = .csrw csr value ∧ ¬ WritableCsr csr
  | .badConfig => ¬ Configured i s ∨ ∃ csr value, i = .csrw csr value ∧ WritableCsr csr ∧ ¬ LegalValue csr value
  | .emptyRegister => ∃ r ∈ readsReg i, s.reg r = none
  | .badDimension => ∃ n1 n2, newShape i = some (n1, n2) ∧ ¬ (DimOk n1 ∧ DimOk n2)
  | .dimensionMismatch => ShapesClash s i
  | .insufficientRandomness => ∃ md n1 n2 addr len, i = .samp md n1 n2 addr len ∧ len < 2 * n1 * n2
  | .malformedCiphertext => ∃ md n1 n2 addr len, i = .unpk md n1 n2 addr len ∧ 8 * len ≠ s.d.toNat * n1 * n2
  | .badLength => WrongLength s i
  | .addressRange => ∃ addr len, region i = some (addr, len) ∧ s.params.bufBytes < addr + len

/-- The rank of a fault in the priority of R210, 1 first; the three length faults share a rank, since a command has
only one of them. -/
def priority : EngineFault → Nat
  | .illegalCommand => 1
  | .badConfig => 2
  | .emptyRegister => 3
  | .badDimension => 4
  | .dimensionMismatch => 5
  | .insufficientRandomness => 6
  | .malformedCiphertext => 6
  | .badLength => 6
  | .addressRange => 7

/-! ## The control part of the state, and runs -/

/-- The shape of a register's matrix, if it holds one: what `MSHAPE_i` shows (R40). -/
def State.shape (s : State) (i : MReg) : Option (Nat × Nat) := (s.reg i).map fun M => (M.rows, M.cols)

/-- Two states agree on what checks and footprints may depend on: `D`, `B`, `K`, the shapes and `BUF_BYTES`
(R240), and on the fault registers and the count. Entries, table entries and `BUF` bytes may differ. -/
structure SameControl (s t : State) : Prop where
  d : s.d = t.d
  b : s.b = t.b
  k : s.k = t.k
  shape : ∀ i, s.shape i = t.shape i
  params : s.params = t.params
  fault : s.fault = t.fault
  errcode : s.errcode = t.errcode
  errseq : s.errseq = t.errseq
  cseq : s.cseq = t.cseq

/-- The transaction is a reset, between commands or inside one (R54). -/
def Transaction.isReset : Transaction → Bool
  | .issue _ => false
  | .csrRead _ => false
  | .bufWrite _ _ => false
  | .bufRead _ => false
  | .reset => true
  | .resetDuring _ => true

/-- The transaction is the issue of a command (R50). -/
def Transaction.isIssue : Transaction → Bool
  | .issue _ => true
  | .csrRead _ => false
  | .bufWrite _ _ => false
  | .bufRead _ => false
  | .reset => false
  | .resetDuring _ => false

/-- The next transaction of the host, if there is one, is not a reset. -/
abbrev State.NoResetNext (s : State) : Prop := ∀ t, s.port.head? = some t → t.isReset = false

/-- A run has not failed so far (R206, R245). -/
abbrev State.Succeeded (s : State) : Prop := s.fault = false

end Sys2Proof.Machine
end

