-- ==== Sys2Proof/Certificates/Slice0/Obligations.lean ====
section
/-! DEFINITION. The statements for the provers. Each docstring names the rule of `spec/` it formalises. -/

open Sys2Proof Sys2Proof.Machine

/-! ## Reset and the host port -/

/-- R47: the state right after reset, the views included. About the bytes of `BUF`, which R47 leaves unspecified,
nothing is said. -/
def Obligations.ResetLeavesTheSpecValues : Prop :=
  (∀ i : MReg, State.reset.reg i = none) ∧
  State.reset.d = 0#5 ∧ State.reset.b = 0#5 ∧ State.reset.k = 0#5 ∧
  (∀ i : Fin 16, State.reset.x[i] = 0#15) ∧
  State.reset.fault = false ∧ State.reset.busy = false ∧
  State.reset.errcode = 0#8 ∧ State.reset.errseq = 0#32 ∧ State.reset.cseq = 0#32 ∧
  State.reset.csrRead 0x0003 = 0#32 ∧ State.reset.csrRead 0x0008 = 0#32 ∧
  ∀ i : MReg, State.reset.csrRead (0x0020 + i.val) = 0#32

/-- R54, R230: a reset, between commands or inside one, leaves the state of R47, with a fresh draw of `BUF` (R232; that
the draw is `Config.bufDraw` at a count of the resets is the model's choice, log 3); `BUF_BYTES` and the host's later
transactions stay (the model's fields, logs 1 and 5). -/
def Obligations.ResetPutsTheEngineInTheResetState : Prop :=
  ∀ (s : State) (rest : List Transaction),
    (s.port = .reset :: rest ∨ ∃ cmd, s.port = .resetDuring cmd :: rest) →
    ∃ t, step s = .next t ∧ (∀ i, t.reg i = none) ∧ t.d = 0#5 ∧ t.b = 0#5 ∧ t.k = 0#5 ∧
      (∀ i : Fin 16, t.x[i] = 0#15) ∧ t.fault = false ∧ t.errcode = 0#8 ∧ t.errseq = 0#32 ∧ t.cseq = 0#32 ∧
      (∀ a, t.bufByte a = Config.bufDraw (s.resets + 1) a) ∧ t.params = s.params ∧ t.port = rest

/-- R51, R40: what `CsrRead` returns for every index, in every state, and that it changes nothing. -/
def Obligations.CsrReadReturnsTheRegister : Prop :=
  ∀ (s : State) (index : BitVec 16) (rest : List Transaction), s.port = .csrRead index :: rest →
    ∃ v : Word, step s = .next { s with port := rest, reply := some (.word v) } ∧
      (index.toNat = 0x0000 → v.toNat = s.d.toNat) ∧
      (index.toNat = 0x0001 → v.toNat = s.b.toNat) ∧
      (index.toNat = 0x0002 → v.toNat = s.k.toNat) ∧
      (index.toNat = 0x0003 → v.toNat = 2 ^ s.d.toNat - 1) ∧
      (index.toNat = 0x0008 → v.toNat = if s.fault then 2 else 0) ∧
      (index.toNat = 0x0009 → v.toNat = s.errcode.toNat) ∧
      (index.toNat = 0x000A → v = s.errseq) ∧
      (index.toNat = 0x000B → v = s.cseq) ∧
      (∀ i : Fin 16, index.toNat = 0x0010 + i.val → v.toNat = (s.x[i]).toNat) ∧
      (∀ i : MReg, index.toNat = 0x0020 + i.val →
        (s.reg i = none → v.toNat = 0) ∧
        ∀ M, s.reg i = some M → M.rows ≤ 1344 → M.cols ≤ 1344 → v.toNat = 2 ^ 31 + M.rows * 2 ^ 16 + M.cols) ∧
      (0x0004 ≤ index.toNat ∧ index.toNat ≤ 0x0007 ∨ 0x000C ≤ index.toNat ∧ index.toNat ≤ 0x000F ∨
        0x0028 ≤ index.toNat → v.toNat = 0)

/-- R52, R53: a `BufWrite` inside `BUF` sets that byte and no other, a `BufRead` returns the byte and changes nothing;
outside `BUF` each is refused with an error response and no state change. Accepted in every state, `FAULT = 1`
included. -/
def Obligations.BufTransactionsTouchOneByteOrAreRefused : Prop :=
  ∀ (s : State) (a : Word) (v : Byte) (rest : List Transaction),
    (s.port = .bufWrite a v :: rest →
      (a.toNat < s.params.bufBytes → ∃ t, step s = .next t ∧
        t = { s with port := rest, reply := none, buf := t.buf } ∧
        t.bufByte a.toNat = v ∧ ∀ a', a' ≠ a.toNat → t.bufByte a' = s.bufByte a') ∧
      (s.params.bufBytes ≤ a.toNat → step s = .next { s with port := rest, reply := some .error })) ∧
    (s.port = .bufRead a :: rest →
      (a.toNat < s.params.bufBytes →
        step s = .next { s with port := rest, reply := some (.byte (s.bufByte a.toNat)) }) ∧
      (s.params.bufBytes ≤ a.toNat → step s = .next { s with port := rest, reply := some .error }))

/-- R98: when the host's next transaction issues a value that decodes to `i` and `FAULT = 0`, the step is `exec i`, at
the state with that transaction taken off the port and no answer outstanding. -/
def Obligations.StepRunsTheDecodedCommand : Prop :=
  ∀ (s : State) (cmd : Command) (i : Instr) (rest : List Transaction),
    s.port = .issue cmd :: rest → s.fault = false → decode cmd = .ok i →
    step s = exec i { s with port := rest, reply := none }

/-- R205: while `FAULT = 1` an issued command is accepted and discarded with no effect at all, and `CsrRead`,
`BufRead` and `BufWrite` keep working. -/
def Obligations.FaultedEngineDiscardsCommands : Prop :=
  ∀ (s : State) (rest : List Transaction), s.fault = true →
    (∀ cmd, s.port = .issue cmd :: rest → step s = .next { s with port := rest, reply := none }) ∧
    (∀ index, s.port = .csrRead index :: rest →
      step s = .next { s with port := rest, reply := some (.word (s.csrRead index.toNat)) }) ∧
    (∀ a : Word, s.port = .bufRead a :: rest → a.toNat < s.params.bufBytes →
      step s = .next { s with port := rest, reply := some (.byte (s.bufByte a.toNat)) }) ∧
    (∀ (a : Word) (v : Byte), s.port = .bufWrite a v :: rest → a.toNat < s.params.bufBytes →
      ∃ t, step s = .next t ∧ t.bufByte a.toNat = v ∧ t.fault = true ∧ t.errcode = s.errcode ∧ t.errseq = s.errseq)

/-! ## Encoding -/

/-- R104: the worked encodings, in both directions, and the value that is no command. -/
def Obligations.WorkedEncodingsDecode : Prop :=
  (decode 0x00000000000000000000000000210312#128 = .ok (.mmac 3 0 1 2) ∧
    encode (.mmac 3 0 1 2) = 0x00000000000000000000000000210312#128) ∧
  (decode 0x0000000f000001000004000200000123#128 = .ok (.unpk 1 2 4 0x100 15) ∧
    encode (.unpk 1 2 4 0x100 15) = 0x0000000f000001000004000200000123#128) ∧
  (decode 0x000000000000000f0000000000000002#128 = .ok (Instr.setD 15) ∧
    encode (Instr.setD 15) = 0x000000000000000f0000000000000002#128) ∧
  (decode 0x00000000000050630000001200000002#128 = .ok (Instr.setX 2 20579) ∧
    encode (Instr.setX 2 20579) = 0x00000000000050630000001200000002#128) ∧
  (decode 0x0000000f000000400000000000003022#128 = .ok (.pack 3 0x40 15) ∧
    encode (.pack 3 0x40 15) = 0x0000000f000000400000000000003022#128) ∧
  decode 0x00000000000000000000000000010910#128 = .error .reservedBitSet

/-- R91, R92, R95, R96: decoding the command of a well-formed instruction gives the instruction back, every operand
at every value its field admits. -/
def Obligations.DecodeOfEncodeIsTheInstruction : Prop :=
  ∀ i : Instr, i.WellFormed → decode (encode i) = .ok i

/-- R96: a 128-bit value that decodes is the command of the instruction it decodes to, so no bit of a command is
dropped and each command has one meaning. -/
def Obligations.EncodeOfDecodedIsTheCommand : Prop :=
  ∀ (cmd : Command) (i : Instr), decode cmd = .ok i → i.WellFormed ∧ encode i = cmd

/-- R96: a value is the command of a row exactly when `cmd & mask = match`, and it matches at most one row. -/
def Obligations.CommandBelongsToTheOneRowItMatches : Prop :=
  (∀ (cmd : Command) (r r' : Row), r ∈ opcodeTable → r' ∈ opcodeTable → cmd &&& r.mask = r.pattern →
    cmd &&& r'.mask = r'.pattern → r.mnemonic = r'.mnemonic) ∧
  ∀ (cmd : Command) (i : Instr),
    decode cmd = .ok i ↔ ∃ r ∈ opcodeTable, cmd &&& r.mask = r.pattern ∧ r.read cmd = i

/-- R99, R202: an opcode outside the twelve, a set bit among 31 to 24, or a value that matches no row, issued while
`FAULT = 0`, raises `IllegalCommand` and changes nothing else. -/
def Obligations.IllegalValuesRaiseIllegalCommand : Prop :=
  ∀ (s : State) (cmd : Command) (rest : List Transaction), s.port = .issue cmd :: rest → s.fault = false →
    ((cmd.extractLsb' 0 8).toNat ∉ [0x01, 0x02, 0x03, 0x10, 0x11, 0x12, 0x20, 0x21, 0x22, 0x23, 0x24, 0x30] ∨
      cmd.extractLsb' 24 8 ≠ 0#8 ∨ ∀ r ∈ opcodeTable, cmd &&& r.mask ≠ r.pattern) →
    step s = .next { s with port := rest, reply := none, errcode := 4#8, errseq := s.cseq, fault := true }

/-! ## The whole machine -/

/-- R244, R217: no step stops the machine; every transaction is taken and every accepted command completes, with a
fault or without. -/
def Obligations.EveryStepAnswersANextState : Prop :=
  (∀ s : State, ∃ t, step s = .next t) ∧ ∀ (i : Instr) (s : State), ∃ t, exec i s = .next t

/-- The invariant (R26 and the ranges of R30 to R39, log 4 for the memory list) holds at reset. -/
def Obligations.InvariantHoldsAtReset : Prop := State.reset.Inv

/-- R26, R30 to R39: every step from a state that meets the invariant leads to one that meets it. -/
def Obligations.EveryStepKeepsTheInvariant : Prop :=
  ∀ s t : State, s.Inv → step s = .next t → t.Inv

/-- R205, R206: once `FAULT = 1`, no transaction but a reset clears it or changes anything outside `BUF`. -/
def Obligations.FaultIsStickyUntilReset : Prop :=
  ∀ s t : State, s.fault = true → s.NoResetNext → step s = .next t →
    t.fault = true ∧ t.errcode = s.errcode ∧ t.errseq = s.errseq ∧ t.cseq = s.cseq ∧
    t.m = s.m ∧ t.d = s.d ∧ t.b = s.b ∧ t.k = s.k ∧ t.x = s.x

/-- R203, R201: `raise` writes the three fault registers and nothing else, with the codes of the table. -/
def Obligations.RaiseWritesTheFaultRegistersOnly : Prop :=
  (∀ (f : EngineFault) (s : State),
    raise f s = .next { s with errcode := f.code, errseq := s.cseq, fault := true }) ∧
  EngineFault.code .dimensionMismatch = 1#8 ∧ EngineFault.code .insufficientRandomness = 2#8 ∧
  EngineFault.code .malformedCiphertext = 3#8 ∧ EngineFault.code .illegalCommand = 4#8 ∧
  EngineFault.code .badConfig = 5#8 ∧ EngineFault.code .badDimension = 6#8 ∧ EngineFault.code .badLength = 7#8 ∧
  EngineFault.code .addressRange = 8#8 ∧ EngineFault.code .emptyRegister = 9#8

/-- R204, R216, R39: a command raises one of the faults listed for it, which leaves the state as it was but for the
three fault registers, or completes, which leaves the fault registers as they were and advances `CSEQ` by one. -/
def Obligations.FaultsArePreciseAndListed : Prop :=
  ∀ (i : Instr) (s : State),
    (∃ f ∈ faultsOf i, exec i s = .next { s with errcode := f.code, errseq := s.cseq, fault := true }) ∨
    ∃ t, exec i s = .next t ∧ t.fault = s.fault ∧ t.errcode = s.errcode ∧ t.errseq = s.errseq ∧ t.cseq = s.cseq + 1

/-- R210: a command reports a fault exactly when its cause (the table of R201) holds and no cause earlier in the
priority does; a length computed from operands the earlier checks have validated stays below `2^25`. -/
def Obligations.ReportedFaultIsTheFirstInPriority : Prop :=
  (∀ (i : Instr) (s : State) (f : EngineFault),
    exec i s = .next { s with errcode := f.code, errseq := s.cseq, fault := true } ↔
      Cause i s f ∧ ∀ g, priority g < priority f → ¬ Cause i s g) ∧
  ∀ d n1 n2 : Nat, d ≤ 16 → DimOk n1 → DimOk n2 → d * n1 * n2 ≤ 16 * 1344 * 1344 ∧ d * n1 * n2 < 2 ^ 25

/-- R240: what a command does to the control part of the state (`D`, `B`, `K`, shapes, fault registers, count), the
fault and its code among it, depends on the command, the control part and `BUF_BYTES` alone: never on an entry, a
table entry or a `BUF` byte. -/
def Obligations.ControlIsIndependentOfData : Prop :=
  ∀ (i : Instr) (s t : State), SameControl s t →
    ∃ s' t', exec i s = .next s' ∧ exec i t = .next t' ∧ SameControl s' t'

/-- R67: two runs that agree on everything but `BUF`, and on the bytes the command reads by its footprint, end alike:
with one fault, or both complete with the same registers; the bytes of the written footprint come out equal and
every other byte is unchanged. In particular the surplus bytes of `SAMP` are not read, and a store merges nothing. -/
def Obligations.CommandsReadAndWriteTheirFootprint : Prop :=
  ∀ (i : Instr) (s : State) (mem : Memory) (n : Nat),
    (∀ a, readsBuf i a → s.bufByte a = State.bufByte { s with buf := mem, resets := n } a) →
    (∃ f, exec i s = .next (s.takeFault f) ∧
      exec i { s with buf := mem, resets := n } = .next (State.takeFault { s with buf := mem, resets := n } f)) ∨
    ∃ s' t', exec i s = .next s' ∧ exec i { s with buf := mem, resets := n } = .next t' ∧
      s'.cseq = s.cseq + 1 ∧ t' = { s' with buf := t'.buf, resets := t'.resets } ∧
      (∀ a, writesBuf i a → s'.bufByte a = t'.bufByte a) ∧
      ∀ a, ¬ writesBuf i a →
        s'.bufByte a = s.bufByte a ∧ t'.bufByte a = State.bufByte { s with buf := mem, resets := n } a

/-- R27: a command changes no matrix register but the ones listed as written, its result depends on no matrix
register but the ones listed as read, and no host transaction but a reset and an issued command changes any. -/
def Obligations.RegistersReadAndWrittenAreTheListed : Prop :=
  (∀ (i : Instr) (s t : State) (r : MReg), exec i s = .next t → r ∉ writesReg i → t.reg r = s.reg r) ∧
  (∀ (i : Instr) (s : State) (m : Vector (Option Mat) 8),
    (∀ r ∈ readsReg i, State.reg { s with m := m } r = s.reg r) →
    ∃ s' t', exec i s = .next s' ∧ exec i { s with m := m } = .next t' ∧ t' = { s' with m := t'.m } ∧
      ((∃ f, s' = s.takeFault f) ∨ ∀ r ∈ writesReg i, s'.reg r = t'.reg r)) ∧
  ∀ (s t : State) (tr : Transaction) (rest : List Transaction), s.port = tr :: rest → tr.isReset = false →
    tr.isIssue = false → step s = .next t → t.m = s.m

/-- R30, R34, R55: `D`, `B`, `K` and the table change only by a reset or by an issued `CSRW`. -/
def Obligations.OnlyCsrwWritesTheParameters : Prop :=
  ∀ s t : State, s.NoResetNext → step s = .next t → (t.d ≠ s.d ∨ t.b ≠ s.b ∨ t.k ≠ s.k ∨ t.x ≠ s.x) →
    ∃ cmd rest csr value, s.port = .issue cmd :: rest ∧ decode cmd = .ok (.csrw csr value) ∧ s.fault = false

/-- R232, R69, R75: without a reset, a byte of `BUF` changes only by a `BufWrite` of it or by a `DEC` or `PACK` whose
region holds it. -/
def Obligations.OnlyStoresAndBufWritesChangeBuf : Prop :=
  ∀ (s t : State) (a : Nat), s.NoResetNext → step s = .next t → t.bufByte a ≠ s.bufByte a →
    (∃ a' v rest, s.port = .bufWrite a' v :: rest ∧ a'.toNat = a) ∨
    ∃ cmd rest i, s.port = .issue cmd :: rest ∧ decode cmd = .ok i ∧ writesBuf i a

/-- R245, R39, R205: after `n` steps without a reset that end with `FAULT = 0`, `CSEQ` has advanced by the number of
commands issued, modulo `2^32`. -/
def Obligations.SuccessfulRunCountsItsCommands : Prop :=
  ∀ (n : Nat) (s t : State), (∀ tr ∈ s.port.take n, tr.isReset = false) →
    Host.Core.run Sys2Proof.core n s = Host.Outcome.next t → t.fault = false →
    s.fault = false ∧ t.cseq = s.cseq + BitVec.ofNat 32 ((s.port.take n).countP Transaction.isIssue) ∧
      t.port = s.port.drop n

/-! ## The fault rules -/

/-- R208: the causes of `BadConfig`, on write and on use, and the example after reset. -/
def Obligations.UnusableConfigurationIsBadConfig : Prop :=
  (∀ (i : Instr) (s : State), (usesD i = true ∧ ¬ (1 ≤ s.d.toNat ∧ s.d.toNat ≤ 16) ∨
      usesB i = true ∧ (s.b.toNat = 0 ∨ s.d.toNat < s.b.toNat) ∨ usesK i = true ∧ s.k.toNat = 0) →
    exec i s = .next (s.takeFault .badConfig)) ∧
  (∀ (s : State) (csr value : Nat), csr ≤ 2 → (value < 1 ∨ 16 < value) →
    exec (.csrw csr value) s = .next (s.takeFault .badConfig)) ∧
  (∀ (s : State) (i : Fin 16) (value : Nat), 32767 < value →
    exec (.csrw (0x0010 + i.val) value) s = .next (s.takeFault .badConfig)) ∧
  (∀ (s : State) (i : MReg), s.Inv → s.d = 0#5 → s.reg i = none) ∧
  exec (.madd 0 1 2) State.reset = .next (State.reset.takeFault .badConfig)

/-- R207: an `Empty` source register is `EmptyRegister`, once the configuration is right. -/
def Obligations.EmptySourceIsEmptyRegister : Prop :=
  ∀ (i : Instr) (s : State) (r : MReg), Configured i s → r ∈ readsReg i → s.reg r = none →
    exec i s = .next (s.takeFault .emptyRegister)

/-- R211: a zero dimension or one above 1344 in a format-L command is `BadDimension`. -/
def Obligations.IllegalDimensionIsBadDimension : Prop :=
  ∀ (i : Instr) (s : State) (n1 n2 : Nat), newShape i = some (n1, n2) → Configured i s →
    (n1 = 0 ∨ n2 = 0 ∨ 1344 < n1 ∨ 1344 < n2) → exec i s = .next (s.takeFault .badDimension)

/-- R213: source shapes that do not fit are `DimensionMismatch`. -/
def Obligations.IncompatibleShapesAreDimensionMismatch : Prop :=
  ∀ (s : State) (md ma mb mc : MReg) (A B E : Mat), 1 ≤ s.d.toNat → s.d.toNat ≤ 16 →
    s.reg ma = some A → s.reg mb = some B → s.reg mc = some E →
    (A.rows ≠ B.rows ∨ A.cols ≠ B.cols →
      exec (.madd md ma mb) s = .next (s.takeFault .dimensionMismatch) ∧
      exec (.msub md ma mb) s = .next (s.takeFault .dimensionMismatch)) ∧
    (A.cols ≠ B.rows ∨ E.rows ≠ A.rows ∨ E.cols ≠ B.cols →
      exec (.mmac md ma mb mc) s = .next (s.takeFault .dimensionMismatch))

/-- R214: a buffer shorter than `2·n1·n2` bytes is `InsufficientRandomness`; a longer one is no error. -/
def Obligations.ShortSamplerBufferIsInsufficientRandomness : Prop :=
  ∀ (s : State) (md : MReg) (n1 n2 addr len : Nat), s.DReady → s.KReady → DimOk n1 → DimOk n2 →
    (len < 2 * n1 * n2 → exec (.samp md n1 n2 addr len) s = .next (s.takeFault .insufficientRandomness)) ∧
    (2 * n1 * n2 ≤ len → s.RegionOk addr len →
      ∃ t, exec (.samp md n1 n2 addr len) s = .next t ∧ t.fault = s.fault ∧ t.cseq = s.cseq + 1)

/-- R215: a packed length other than `D·n1·n2` bits is `MalformedCiphertext`; whatever the bytes, one of the right
length unpacks. -/
def Obligations.WrongPackedLengthIsMalformedCiphertext : Prop :=
  ∀ (s : State) (md : MReg) (n1 n2 addr len : Nat), s.DReady → DimOk n1 → DimOk n2 →
    (8 * len ≠ s.d.toNat * n1 * n2 →
      exec (.unpk md n1 n2 addr len) s = .next (s.takeFault .malformedCiphertext)) ∧
    (8 * len = s.d.toNat * n1 * n2 → s.RegionOk addr len →
      ∃ t, exec (.unpk md n1 n2 addr len) s = .next t ∧ t.fault = s.fault ∧ t.cseq = s.cseq + 1)

/-- R212: `BadLength` of `ENC`, `DEC`, `PACK` and `LDBE`. -/
def Obligations.InexactLengthIsBadLength : Prop :=
  ∀ (s : State) (r : MReg) (n1 n2 addr len : Nat) (M : Mat), s.DReady → DimOk n1 → DimOk n2 → s.reg r = some M →
    (∀ md, s.BReady → 8 * len ≠ s.b.toNat * n1 * n2 →
      exec (.enc md n1 n2 addr len) s = .next (s.takeFault .badLength)) ∧
    (s.BReady → 8 * len ≠ s.b.toNat * M.rows * M.cols →
      exec (.dec r addr len) s = .next (s.takeFault .badLength)) ∧
    (8 * len ≠ s.d.toNat * M.rows * M.cols → exec (.pack r addr len) s = .next (s.takeFault .badLength)) ∧
    ∀ md, len ≠ 2 * n1 * n2 → exec (.ldbe md n1 n2 addr len) s = .next (s.takeFault .badLength)

/-- R209: `addr + len > BUF_BYTES`, the sum an integer that does not wrap, is `AddressRange`, the last check of every
buffer command; the `len` of the command counts, also for `SAMP`, and a `len` of 0 never comes to it. -/
def Obligations.RegionOutsideBufIsAddressRange : Prop :=
  ∀ (i : Instr) (s : State) (addr len : Nat), region i = some (addr, len) → s.params.bufBytes < addr + len →
    (∀ f, priority f < priority .addressRange → ¬ Cause i s f) →
    exec i s = .next (s.takeFault .addressRange) ∧ (s.Inv → 0 < len)

/-! ## Control commands -/

/-- R185: `NOP` only counts; it is the one command with opcode 0x01. -/
def Obligations.NopOnlyCounts : Prop :=
  (∀ s : State, exec .nop s = .next { s with cseq := s.cseq + 1 }) ∧
  encode .nop = 1#128 ∧ decode 1#128 = .ok .nop ∧
  ∀ cmd : Command, cmd.extractLsb' 0 8 = 0x01#8 → cmd ≠ 1#128 → decode cmd = .error .reservedBitSet

/-- R186: `CSRW` writes the one register its index names, a write of `D` empties all matrix registers, and the two
faults come in order. -/
def Obligations.CsrwFollowsItsRule : Prop :=
  ∀ (s : State) (csr value : Nat),
    (csr = 0x0000 → 1 ≤ value → value ≤ 16 → ∃ t, exec (.csrw csr value) s = .next t ∧ t.d.toNat = value ∧
      (∀ i, t.reg i = none) ∧ t = { s with d := t.d, m := t.m, cseq := s.cseq + 1 } ∧
      t.csrRead 0x0003 = BitVec.ofNat 32 (2 ^ value - 1)) ∧
    (csr = 0x0001 → 1 ≤ value → value ≤ 16 → ∃ t, exec (.csrw csr value) s = .next t ∧ t.b.toNat = value ∧
      t = { s with b := t.b, cseq := s.cseq + 1 }) ∧
    (csr = 0x0002 → 1 ≤ value → value ≤ 16 → ∃ t, exec (.csrw csr value) s = .next t ∧ t.k.toNat = value ∧
      t = { s with k := t.k, cseq := s.cseq + 1 }) ∧
    (∀ i : Fin 16, csr = 0x0010 + i.val → value ≤ 32767 → ∃ t, exec (.csrw csr value) s = .next t ∧
      (t.x[i]).toNat = value ∧ (∀ j : Fin 16, j ≠ i → t.x[j] = s.x[j]) ∧
      t = { s with x := t.x, cseq := s.cseq + 1 }) ∧
    (¬ (csr ≤ 2 ∨ 0x0010 ≤ csr ∧ csr ≤ 0x001F) → exec (.csrw csr value) s = .next (s.takeFault .illegalCommand)) ∧
    (csr ≤ 2 → (value < 1 ∨ 16 < value) → exec (.csrw csr value) s = .next (s.takeFault .badConfig)) ∧
    (0x0010 ≤ csr → csr ≤ 0x001F → 32767 < value → exec (.csrw csr value) s = .next (s.takeFault .badConfig)) ∧
    (csr < 2 ^ 16 → value < 2 ^ 32 → (encode (.csrw csr value)).toNat = 0x02 + 2 ^ 32 * csr + 2 ^ 64 * value)

/-- R187: `MCLR` makes its register `Empty`, needs no configuration, and a later read of the register is
`EmptyRegister`; `MSHAPE_md` reads 0. -/
def Obligations.MclrEmptiesItsRegister : Prop :=
  ∀ (s : State) (md : MReg), ∃ t, exec (.mclr md) s = .next t ∧ t = { s with m := t.m, cseq := s.cseq + 1 } ∧
    t.reg md = none ∧ (∀ r, r ≠ md → t.reg r = s.reg r) ∧ t.csrRead (0x0020 + md.val) = 0#32 ∧
    (s.reg md = none → t = { s with cseq := s.cseq + 1 }) ∧
    (t.DReady → ∀ addr len, exec (.pack md addr len) t = .next (t.takeFault .emptyRegister)) ∧
    (encode (.mclr md)).toNat = 0x03 + 2 ^ 8 * md.val

/-- R188: `LDBE` builds the matrix of the big-endian 16-bit chunks, masked with `q - 1`. -/
def Obligations.LdbeLoadsMaskedChunks : Prop :=
  ∀ (s : State) (md : MReg) (n1 n2 addr len : Nat), s.DReady → DimOk n1 → DimOk n2 → len = 2 * n1 * n2 →
    s.RegionOk addr len →
    ∃ R, exec (.ldbe md n1 n2 addr len) s = .next (s.setReg md (some R)).count ∧ R.rows = n1 ∧ R.cols = n2 ∧
      R.entries.length = n1 * n2 ∧
      ∀ r c, r < n1 → c < n2 → (R.entry r c).toNat =
        ((s.bufByte (addr + 2 * (r * n2 + c))).toNat * 256 + (s.bufByte (addr + 2 * (r * n2 + c) + 1)).toNat) &&&
          (2 ^ s.d.toNat - 1)

/-! ## Arithmetic commands -/

/-- R128, R121: `MADD` is entry-wise addition modulo `q`. -/
def Obligations.MaddAddsModQ : Prop :=
  ∀ (s : State) (md ma mb : MReg) (A B : Mat), s.DReady → s.reg ma = some A → s.reg mb = some B →
    A.rows = B.rows → A.cols = B.cols →
    ∃ R, exec (.madd md ma mb) s = .next (s.setReg md (some R)).count ∧ R.rows = A.rows ∧ R.cols = A.cols ∧
      R.entries.length = A.rows * A.cols ∧
      ∀ r c, r < A.rows → c < A.cols →
        (R.entry r c).toNat = ((A.entry r c).toNat + (B.entry r c).toNat) % 2 ^ s.d.toNat

/-- R129, R125: `MSUB` is entry-wise subtraction `ma - mb`, the non-negative residue modulo `q`. -/
def Obligations.MsubSubtractsModQ : Prop :=
  ∀ (s : State) (md ma mb : MReg) (A B : Mat), s.DReady → s.reg ma = some A → s.reg mb = some B →
    A.rows = B.rows → A.cols = B.cols →
    ∃ R, exec (.msub md ma mb) s = .next (s.setReg md (some R)).count ∧ R.rows = A.rows ∧ R.cols = A.cols ∧
      R.entries.length = A.rows * A.cols ∧
      ∀ r c, r < A.rows → c < A.cols →
        ((R.entry r c).toNat : Int) = (((A.entry r c).toNat : Int) - ((B.entry r c).toNat : Int)) % 2 ^ s.d.toNat

/-- R130: `MMAC` is the matrix product `ma·mb` plus `mc`, modulo `q`. -/
def Obligations.MmacMultipliesAndAddsModQ : Prop :=
  ∀ (s : State) (md ma mb mc : MReg) (A B E : Mat), s.DReady → s.reg ma = some A → s.reg mb = some B →
    s.reg mc = some E → A.cols = B.rows → E.rows = A.rows → E.cols = B.cols →
    ∃ R, exec (.mmac md ma mb mc) s = .next (s.setReg md (some R)).count ∧ R.rows = A.rows ∧ R.cols = B.cols ∧
      R.entries.length = A.rows * B.cols ∧
      ∀ r c, r < A.rows → c < B.cols →
        (R.entry r c).toNat =
          ((∑ k ∈ Finset.range A.cols, (A.entry r k).toNat * (B.entry k c).toNat) + (E.entry r c).toNat) %
            2 ^ s.d.toNat

/-- R131: the laws of the arithmetic, for matrices of one shape and entries below `q`. -/
def Obligations.ArithmeticObeysTheRingLaws : Prop :=
  ∀ (d : Nat) (A B : Mat), 1 ≤ d → d ≤ 16 → A.Wf → B.Wf → A.Below d → B.Below d → A.SameShape B →
    matSub d (matAdd d A B) B = A ∧ matSub d (matAdd d A B) A = B ∧ matAdd d A B = matAdd d B A ∧
    matSub d A B = matAdd d A (matSub d (Mat.ofFn A.rows A.cols fun _ _ => 0) B) ∧
    (∀ P Q : Mat, P.rows = A.rows → Q.cols = A.cols → matMulAdd d P Q A =
      matAdd d (matMulAdd d P Q (Mat.ofFn A.rows A.cols fun _ _ => 0)) A) ∧
    matMulAdd d A (Mat.ofFn A.cols A.cols fun r c => if r = c then 1 else 0) (Mat.ofFn A.rows A.cols fun _ _ => 0) = A

/-- R124, R46: the exact sum stays below `2^43`, and an accumulator of any width `W ≥ D` that wraps modulo `2^W`, the
products wrapped too, gives the entry `MMAC` writes: the accumulator cannot be observed. -/
def Obligations.AccumulatorWidthCannotBeObserved : Prop :=
  ∀ (d W : Nat) (A B E : Mat) (r c : Nat), 1 ≤ d → d ≤ 16 → d ≤ W → r < A.rows → c < B.cols → A.cols ≤ 1344 →
    (E.entry r c).toNat + (∑ k ∈ Finset.range A.cols, (A.entry r k).toNat * (B.entry k c).toNat) < 2 ^ 43 ∧
    ((matMulAdd d A B E).entry r c).toNat =
      ((List.range A.cols).foldl (fun (acc : BitVec W) k =>
        acc + BitVec.ofNat W (A.entry r k).toNat * BitVec.ofNat W (B.entry k c).toNat)
        (BitVec.ofNat W (E.entry r c).toNat)).toNat % 2 ^ d

/-! ## Codec commands -/

/-- R141: `ec(k) = k · 2^(D-B)`, and its three values. That `ec(k)` stays below `2^D`, so that the mask removes nothing,
is an inference R141 itself marks as derived; so this statement is derived. -/
def Obligations.EcPlacesTheHighBits : Prop :=
  ∀ d b : Nat, 1 ≤ b → b ≤ d → d ≤ 16 →
    (∀ k, k < 2 ^ b → (ec d b k).toNat = k * 2 ^ (d - b) ∧ (ec d b k).toNat < 2 ^ d) ∧
    (ec d b 0).toNat = 0 ∧ (ec d b 1).toNat = 2 ^ (d - b) ∧ (ec d b (2 ^ b - 1)).toNat = 2 ^ d - 2 ^ (d - b) ∧
    (b = d → ∀ k, k < 2 ^ b → (ec d b k).toNat = k)

/-- R142: `dc(c)` is `c / 2^(D-B)` rounded half up, modulo `2^B`; `c` itself for `B = D`; the value at the input on
which the source's slip would differ. -/
def Obligations.DcRoundsHalfUp : Prop :=
  (∀ d b c : Nat, 1 ≤ b → b ≤ d → d ≤ 16 → c < 2 ^ d →
    (b < d → ((dc d b c : Nat) : Int) = ⌊(c : ℚ) / 2 ^ (d - b) + 1 / 2⌋ % 2 ^ b ∧
      dc d b c = (c + 2 ^ (d - b - 1)) / 2 ^ (d - b) % 2 ^ b) ∧ (b = d → dc d b c = c)) ∧
  dc 15 2 4096 = 1

/-- R143: the intervals of `dc` and its noise tolerance: `ec(k) + e` modulo `q` decodes to `k` exactly when
`-h ≤ e < h`, for a signed error of at most half of `q`. -/
def Obligations.DcToleratesHalfAStep : Prop :=
  ∀ d b : Nat, 1 ≤ b → b < d → d ≤ 16 →
    (∀ j c, 1 ≤ j → j < 2 ^ b → j * 2 ^ (d - b) - 2 ^ (d - b - 1) ≤ c → c < j * 2 ^ (d - b) + 2 ^ (d - b - 1) →
      dc d b c = j) ∧
    (∀ c, c < 2 ^ (d - b - 1) → dc d b c = 0) ∧
    (∀ c, 2 ^ d - 2 ^ (d - b - 1) ≤ c → c < 2 ^ d → dc d b c = 0) ∧
    (∀ c, c < 2 ^ d → c + 2 ^ (d - b - 1) < 2 ^ 17) ∧
    ∀ (k : Nat) (e : Int), k < 2 ^ b → -(2 ^ (d - 1) : Int) ≤ e → e < 2 ^ (d - 1) →
      (dc d b (reduce d ((ec d b k).toNat + e)).toNat = k ↔ -(2 ^ (d - b - 1) : Int) ≤ e ∧ e < 2 ^ (d - b - 1))

/-- R144: `dc(ec(k)) = k`. -/
def Obligations.DcOfEcIsTheInteger : Prop :=
  ∀ d b k : Nat, 1 ≤ b → b ≤ d → d ≤ 16 → k < 2 ^ b → dc d b (ec d b k).toNat = k

/-- R146, R145: `ENC` builds the matrix of `ec` of the `B`-bit groups of the message, row-major, the first bit of a
group the most significant. -/
def Obligations.EncEncodesTheMessage : Prop :=
  ∀ (s : State) (md : MReg) (n1 n2 addr len : Nat), s.DReady → s.BReady → DimOk n1 → DimOk n2 →
    8 * len = s.b.toNat * n1 * n2 → s.RegionOk addr len →
    ∃ R, exec (.enc md n1 n2 addr len) s = .next (s.setReg md (some R)).count ∧ R.rows = n1 ∧ R.cols = n2 ∧
      R.entries.length = n1 * n2 ∧
      ∀ r c, r < n1 → c < n2 → ∃ k, k < 2 ^ s.b.toNat ∧ (R.entry r c).toNat = k * 2 ^ (s.d.toNat - s.b.toNat) ∧
        ∀ t, t < s.b.toNat → k.testBit (s.b.toNat - 1 - t) = s.bufBit addr ((r * n2 + c) * s.b.toNat + t)

/-- R147: `DEC` writes the `B` bits of `dc` of every entry, row-major, most significant bit first, over the whole
region, and changes nothing else. -/
def Obligations.DecWritesTheMessage : Prop :=
  ∀ (s : State) (ma : MReg) (addr len : Nat) (M : Mat), s.DReady → s.BReady → s.reg ma = some M →
    8 * len = s.b.toNat * M.rows * M.cols → s.RegionOk addr len →
    ∃ t, exec (.dec ma addr len) s = .next t ∧ t = { s with buf := t.buf, cseq := s.cseq + 1 } ∧
      (∀ a, a < addr ∨ addr + len ≤ a → t.bufByte a = s.bufByte a) ∧
      ∀ r c j, r < M.rows → c < M.cols → j < s.b.toNat → t.bufBit addr ((r * M.cols + c) * s.b.toNat + j) =
        (dc s.d.toNat s.b.toNat (M.entry r c).toNat).testBit (s.b.toNat - 1 - j)

/-- R150, R148: `PACK` writes the `D` bits of every entry, row-major, most significant bit first, over the whole
region, and changes nothing else. -/
def Obligations.PackWritesEveryBit : Prop :=
  ∀ (s : State) (ma : MReg) (addr len : Nat) (M : Mat), s.DReady → s.reg ma = some M →
    8 * len = s.d.toNat * M.rows * M.cols → s.RegionOk addr len →
    ∃ t, exec (.pack ma addr len) s = .next t ∧ t = { s with buf := t.buf, cseq := s.cseq + 1 } ∧
      (∀ a, a < addr ∨ addr + len ≤ a → t.bufByte a = s.bufByte a) ∧
      ∀ r c j, r < M.rows → c < M.cols → j < s.d.toNat → t.bufBit addr ((r * M.cols + c) * s.d.toNat + j) =
        (M.entry r c).toNat.testBit (s.d.toNat - 1 - j)

/-- R151, R148: `UNPK` builds the matrix of the `D`-bit fields of the packed region. -/
def Obligations.UnpkReadsTheFields : Prop :=
  ∀ (s : State) (md : MReg) (n1 n2 addr len : Nat), s.DReady → DimOk n1 → DimOk n2 →
    8 * len = s.d.toNat * n1 * n2 → s.RegionOk addr len →
    ∃ R, exec (.unpk md n1 n2 addr len) s = .next (s.setReg md (some R)).count ∧ R.rows = n1 ∧ R.cols = n2 ∧
      R.entries.length = n1 * n2 ∧
      ∀ r c, r < n1 → c < n2 → (R.entry r c).toNat < 2 ^ s.d.toNat ∧
        ∀ t, t < s.d.toNat →
          (R.entry r c).toNat.testBit (s.d.toNat - 1 - t) = s.bufBit addr ((r * n2 + c) * s.d.toNat + t)

/-- R149: `UNPK` of what `PACK` wrote, with the same shape and `D`, gives a register equal to the packed one. -/
def Obligations.UnpkOfPackRestoresTheRegister : Prop :=
  ∀ (s : State) (md ma : MReg) (addr len : Nat) (M : Mat), s.Inv → s.reg ma = some M →
    8 * len = s.d.toNat * M.rows * M.cols → s.RegionOk addr len →
    ∃ s' t, exec (.pack ma addr len) s = .next s' ∧ exec (.unpk md M.rows M.cols addr len) s' = .next t ∧
      t.reg md = some M ∧ t.fault = s.fault ∧ t.cseq = s.cseq + 2

/-- R149: `PACK` of what `UNPK` read, to another region of the same length, writes identical bytes. -/
def Obligations.PackOfUnpkRestoresTheBytes : Prop :=
  ∀ (s : State) (md : MReg) (n1 n2 addr addr' len : Nat), s.DReady → DimOk n1 → DimOk n2 →
    8 * len = s.d.toNat * n1 * n2 → s.RegionOk addr len → s.RegionOk addr' len →
    ∃ s' t, exec (.unpk md n1 n2 addr len) s = .next s' ∧ exec (.pack md addr' len) s' = .next t ∧
      (∀ j, j < len → t.bufByte (addr' + j) = s.bufByte (addr + j)) ∧ t.fault = s.fault ∧ t.cseq = s.cseq + 2

/-- R147, R144: `DEC` after `ENC` of the same shape, with no change of `D` or `B`, reproduces the message bytes. -/
def Obligations.DecOfEncRestoresTheMessage : Prop :=
  ∀ (s : State) (md : MReg) (n1 n2 addr addr' len : Nat), s.DReady → s.BReady → DimOk n1 → DimOk n2 →
    8 * len = s.b.toNat * n1 * n2 → s.RegionOk addr len → s.RegionOk addr' len →
    ∃ s' t, exec (.enc md n1 n2 addr len) s = .next s' ∧ exec (.dec md addr' len) s' = .next t ∧
      (∀ j, j < len → t.bufByte (addr' + j) = s.bufByte (addr + j)) ∧ t.fault = s.fault ∧ t.cseq = s.cseq + 2

/-- R152: the all-zero message gives the all-zero matrix; the message whose only set bit is the leading one gives
`2^(D-1)` at `(0, 0)`, the one whose only set bit is bit `B - 1` gives `2^(D-B)`, and zeros elsewhere. -/
def Obligations.LeadingMessageBitIsTheHighBit : Prop :=
  ∀ (s : State) (md : MReg) (n1 n2 addr len : Nat), s.DReady → s.BReady → DimOk n1 → DimOk n2 →
    8 * len = s.b.toNat * n1 * n2 → s.RegionOk addr len →
    ∃ R, exec (.enc md n1 n2 addr len) s = .next (s.setReg md (some R)).count ∧
      ((∀ p, p < 8 * len → s.bufBit addr p = false) → ∀ r c, r < n1 → c < n2 → (R.entry r c).toNat = 0) ∧
      ((∀ p, p < 8 * len → s.bufBit addr p = decide (p = 0)) → ∀ r c, r < n1 → c < n2 →
        (R.entry r c).toNat = if r = 0 ∧ c = 0 then 2 ^ (s.d.toNat - 1) else 0) ∧
      ((∀ p, p < 8 * len → s.bufBit addr p = decide (p = s.b.toNat - 1)) → ∀ r c, r < n1 → c < n2 →
        (R.entry r c).toNat = if r = 0 ∧ c = 0 then 2 ^ (s.d.toNat - s.b.toNat) else 0)

/-! ## Sampler -/

/-- R171: `sample(r)`: `e` counts the thresholds strictly below the top 15 bits of `r`, in any order; the result is `e`
or, for an odd `r`, `-e`, modulo `q`; taken literally when `e < q`. -/
def Obligations.SampleFollowsTheTable : Prop :=
  ∀ (d : Nat) (xs : List (BitVec 15)) (r : Nat), 1 ≤ d → d ≤ 16 →
    (∀ e, e = (xs.filter fun x => decide (x.toNat < r / 2)).length →
      ((sample d xs r).toNat : Int) = (if r % 2 = 1 then -(e : Int) else (e : Int)) % 2 ^ d ∧
      (e < 2 ^ d → (sample d xs r).toNat = if r % 2 = 1 ∧ e ≠ 0 then 2 ^ d - e else e)) ∧
    ∀ ys, xs.Perm ys → sample d ys r = sample d xs r

/-- R172 (a) to (f), for a table of `K` thresholds. -/
def Obligations.SampleHasItsProperties : Prop :=
  ∀ (d : Nat) (xs : List (BitVec 15)), 1 ≤ d → d ≤ 16 →
    (∀ r, magnitude xs (r / 2) ≤ xs.length ∧ (xs.length < 2 ^ d →
      (sample d xs r).toNat ≤ xs.length ∨
        2 ^ d - xs.length ≤ (sample d xs r).toNat ∧ (sample d xs r).toNat < 2 ^ d)) ∧
    (sample d xs 0).toNat = 0 ∧ (sample d xs 1).toNat = 0 ∧
    (∀ r, magnitude xs (r / 2) = 0 → (sample d xs r).toNat = 0) ∧
    (∀ r, r < 65536 → magnitude xs (r / 2) ≠ 0 →
      (sample d xs (r ||| 1)).toNat = (2 ^ d - (sample d xs (r &&& 0xFFFE)).toNat) &&& (2 ^ d - 1)) ∧
    magnitude xs 0 = 0 ∧
    (∀ t, t ≤ 32767 → xs.getLast? = some 32767#15 → magnitude xs t ≤ xs.length - 1) ∧
    (∀ t, xs.Pairwise (fun x y => x.toNat ≤ y.toNat) → ∀ i (h : i < xs.length),
      (i < magnitude xs t → (xs[i]).toNat < t) ∧ (i = magnitude xs t → t ≤ (xs[i]).toNat)) ∧
    ∀ r, magnitude xs ((r ||| 1) / 2) = magnitude xs (r / 2)

/-- R173, R171: `SAMP` builds the matrix of the samples of the big-endian 16-bit chunks, with the first `K` thresholds
of the table. -/
def Obligations.SampSamplesTheChunks : Prop :=
  ∀ (s : State) (md : MReg) (n1 n2 addr len : Nat), s.DReady → s.KReady → DimOk n1 → DimOk n2 → 2 * n1 * n2 ≤ len →
    s.RegionOk addr len →
    ∃ R, exec (.samp md n1 n2 addr len) s = .next (s.setReg md (some R)).count ∧ R.rows = n1 ∧ R.cols = n2 ∧
      R.entries.length = n1 * n2 ∧
      ∀ r c rr e, r < n1 → c < n2 →
        rr = (s.bufByte (addr + 2 * (r * n2 + c))).toNat * 256 + (s.bufByte (addr + 2 * (r * n2 + c) + 1)).toNat →
        e = (Finset.univ.filter fun i : Fin 16 => i.val < s.k.toNat ∧ (s.x[i]).toNat < rr / 2).card →
        ((R.entry r c).toNat : Int) = (if rr % 2 = 1 then -(e : Int) else (e : Int)) % 2 ^ s.d.toNat

/-- R61: a big-endian 16-bit chunk is the 16-bit field of the bit string at the same place. -/
def Obligations.ChunkIsASixteenBitField : Prop :=
  ∀ (s : State) (addr g : Nat),
    (s.bufByte (addr + 2 * g)).toNat * 256 + (s.bufByte (addr + 2 * g + 1)).toNat = s.bitField addr (16 * g) 16 ∧
    s.chunk addr g = s.bitField addr (16 * g) 16

/-! ## Frames -/

/-- R27, R67, R42: the frame of `MCLR`, `MADD`, `MSUB`, `MMAC`, `ENC`, `UNPK`, `LDBE` and `SAMP`: no register but `md`, no
parameter, no table entry and no byte of `BUF` changes; the fault registers change only by a fault, which then
leaves all registers as they were and does not count. -/
def Obligations.RegisterCommandsLeaveTheRest : Prop :=
  ∀ (i : Instr) (s t : State) (md : MReg),
    (i = .mclr md ∨ (∃ ma mb, i = .madd md ma mb) ∨ (∃ ma mb, i = .msub md ma mb) ∨
      (∃ ma mb mc, i = .mmac md ma mb mc) ∨ (∃ n1 n2 addr len, i = .enc md n1 n2 addr len) ∨
      (∃ n1 n2 addr len, i = .unpk md n1 n2 addr len) ∨ (∃ n1 n2 addr len, i = .ldbe md n1 n2 addr len) ∨
      ∃ n1 n2 addr len, i = .samp md n1 n2 addr len) →
    exec i s = .next t →
    (∀ r, r ≠ md → t.reg r = s.reg r) ∧ t.d = s.d ∧ t.b = s.b ∧ t.k = s.k ∧ t.x = s.x ∧
    (∀ a, t.bufByte a = s.bufByte a) ∧ t.params = s.params ∧ t.port = s.port ∧
    (t.fault = s.fault ∧ t.errcode = s.errcode ∧ t.errseq = s.errseq ∧ t.cseq = s.cseq + 1 ∨
      t.m = s.m ∧ t.fault = true ∧ t.errseq = s.cseq ∧ t.cseq = s.cseq)

/-- R27, R67, R42: the frame of `DEC` and `PACK`: no register, parameter or table entry changes, and every byte of `BUF`
outside `[addr, addr + len)` reads as before; a fault changes no byte at all. -/
def Obligations.StoreCommandsLeaveTheRest : Prop :=
  ∀ (i : Instr) (s t : State) (ma : MReg) (addr len : Nat), (i = .dec ma addr len ∨ i = .pack ma addr len) →
    exec i s = .next t →
    (∀ r, t.reg r = s.reg r) ∧ t.d = s.d ∧ t.b = s.b ∧ t.k = s.k ∧ t.x = s.x ∧ t.params = s.params ∧ t.port = s.port ∧
    (∀ a, a < addr ∨ addr + len ≤ a → t.bufByte a = s.bufByte a) ∧
    (t.fault = s.fault ∧ t.errcode = s.errcode ∧ t.errseq = s.errseq ∧ t.cseq = s.cseq + 1 ∨
      (∀ a, t.bufByte a = s.bufByte a) ∧ t.fault = true ∧ t.errseq = s.cseq ∧ t.cseq = s.cseq)

/-- R186, R185, R42: the frame of `CSRW` and `NOP`: no byte of `BUF` changes; a `CSRW` changes no register file and no
parameter but the one its index names (a write of `D` empties the registers too), and `NOP` none. -/
def Obligations.ControlCommandsLeaveTheRest : Prop :=
  (∀ (s t : State) (csr value : Nat), exec (.csrw csr value) s = .next t →
    (∀ a, t.bufByte a = s.bufByte a) ∧ t.params = s.params ∧ t.port = s.port ∧
    (csr ≠ 0x0000 → t.d = s.d ∧ ∀ r, t.reg r = s.reg r) ∧ (csr ≠ 0x0001 → t.b = s.b) ∧ (csr ≠ 0x0002 → t.k = s.k) ∧
    (∀ i : Fin 16, csr ≠ 0x0010 + i.val → t.x[i] = s.x[i]) ∧
    (t.fault = s.fault ∧ t.errcode = s.errcode ∧ t.errseq = s.errseq ∧ t.cseq = s.cseq + 1 ∨
      (∀ r, t.reg r = s.reg r) ∧ t.d = s.d ∧ t.b = s.b ∧ t.k = s.k ∧ t.x = s.x ∧ t.fault = true ∧
        t.errseq = s.cseq ∧ t.cseq = s.cseq)) ∧
  ∀ s t : State, exec .nop s = .next t →
    (∀ a, t.bufByte a = s.bufByte a) ∧ (∀ r, t.reg r = s.reg r) ∧ t.d = s.d ∧ t.b = s.b ∧ t.k = s.k ∧ t.x = s.x ∧
    t.fault = s.fault ∧ t.errcode = s.errcode ∧ t.errseq = s.errseq ∧ t.params = s.params ∧ t.port = s.port
end

