-- ==== Sys2Proof/Laws/Bits.lean ====
section
/-! SUPPORT. Laws of bit strings and of reduction modulo `q`. -/

namespace Sys2Proof.Machine

theorem bitsValue_lt (bit : Nat → Bool) (p w : Nat) : bitsValue bit p w < 2 ^ w := by
  induction w with
  | zero => simp [bitsValue]
  | succ w ih => simp only [bitsValue, Nat.pow_succ]; cases bit (p + w) <;> simp <;> omega

/-- The value of a field depends on the bits of the field only. -/
theorem bitsValue_congr {bit bit' : Nat → Bool} {p p' w : Nat} (h : ∀ t, t < w → bit (p + t) = bit' (p' + t)) :
    bitsValue bit p w = bitsValue bit' p' w := by
  induction w with
  | zero => rfl
  | succ w ih => rw [bitsValue, bitsValue, ih fun t ht => h t (by omega), h w (by omega)]

/-- String bit `p + t` is bit `w - 1 - t` of the field: the first bit is the most significant (R10). -/
theorem testBit_bitsValue (bit : Nat → Bool) (p w t : Nat) (h : t < w) :
    (bitsValue bit p w).testBit (w - 1 - t) = bit (p + t) := by
  induction w with
  | zero => omega
  | succ w ih =>
    rw [bitsValue]
    rcases Nat.lt_succ_iff_lt_or_eq.mp h with h | rfl
    · have hs : w + 1 - 1 - t = (w - 1 - t) + 1 := by omega
      rw [hs, Nat.testBit_succ, ← ih h]
      congr 1
      cases bit (p + w) <;> simp
      omega
    · have hs : t + 1 - 1 - t = 0 := by omega
      rw [hs, Nat.testBit_zero]
      cases bit (p + t) <;> simp

/-- A number below `2^w` is the field of its own bits. -/
theorem bitsValue_of_testBit {bit : Nat → Bool} {p w n : Nat} (hn : n < 2 ^ w)
    (h : ∀ t, t < w → bit (p + t) = n.testBit (w - 1 - t)) : bitsValue bit p w = n := by
  refine Nat.eq_of_testBit_eq fun i => ?_
  by_cases hi : i < w
  · have := testBit_bitsValue bit p w (w - 1 - i) (by omega)
    rw [show w - 1 - (w - 1 - i) = i by omega] at this
    rw [this, h _ (by omega), show w - 1 - (w - 1 - i) = i by omega]
  · have le := Nat.pow_le_pow_right (n := 2) (by omega) (Nat.le_of_not_lt hi)
    rw [Nat.testBit_lt_two_pow (Nat.lt_of_lt_of_le (bitsValue_lt ..) le),
      Nat.testBit_lt_two_pow (Nat.lt_of_lt_of_le hn le)]

/-- Field `g` of a dense sequence of `w`-bit values is value `g` (R62, R149). -/
theorem bitsValue_packedBit {w : Nat} {value : Nat → Nat} {g : Nat} (hv : value g < 2 ^ w) :
    bitsValue (packedBit w value) (g * w) w = value g := by
  refine bitsValue_of_testBit hv fun t ht => ?_
  have hdiv : (g * w + t) / w = g := by
    rw [Nat.mul_comm, Nat.mul_add_div (by omega), Nat.div_eq_of_lt ht, Nat.add_zero]
  have hmod : (g * w + t) % w = t := by rw [Nat.mul_comm, Nat.mul_add_mod, Nat.mod_eq_of_lt ht]
  rw [packedBit, hdiv, hmod]

@[simp] theorem length_bytesOfBits (bit : Nat → Bool) (n : Nat) : (bytesOfBits bit n).length = n := by
  simp [bytesOfBits]

theorem getElem_bytesOfBits (bit : Nat → Bool) (n j : Nat) (h : j < (bytesOfBits bit n).length) :
    (bytesOfBits bit n)[j] = BitVec.ofNat 8 (bitsValue bit (8 * j) 8) := by
  simp [bytesOfBits]

/-- Bit `7 - (p mod 8)` of byte `p div 8` is string bit `p` (R10). -/
theorem getLsbD_byteOfBits (bit : Nat → Bool) (p : Nat) :
    (BitVec.ofNat 8 (bitsValue bit (8 * (p / 8)) 8)).getLsbD (7 - p % 8) = bit p := by
  have hm : p % 8 < 8 := Nat.mod_lt _ (by omega)
  rw [BitVec.getLsbD_ofNat, decide_eq_true (by omega : 7 - p % 8 < 8), Bool.true_and]
  have := testBit_bitsValue bit (8 * (p / 8)) 8 (p % 8) hm
  rw [show 8 - 1 - p % 8 = 7 - p % 8 by omega] at this
  rw [this, Nat.div_add_mod]

/-! ## Reduction -/

/-- For `D ≤ 16` the residue fits an entry (R121). -/
theorem reduce_toNat {d : Nat} (hd : d ≤ 16) (v : Int) : ((reduce d v).toNat : Int) = v % ((2 ^ d : Nat) : Int) := by
  have hpos : (0 : Int) < ((2 ^ d : Nat) : Int) := by exact_mod_cast Nat.pow_pos (by omega)
  have h0 := Int.emod_nonneg v (Int.ne_of_gt hpos)
  have h1 := Int.emod_lt_of_pos v hpos
  have h2 : ((2 ^ d : Nat) : Int) ≤ ((2 ^ 16 : Nat) : Int) := by
    exact_mod_cast Nat.pow_le_pow_right (n := 2) (by omega) hd
  rw [reduce, BitVec.toNat_ofInt, Int.toNat_of_nonneg (Int.emod_nonneg _ (by decide))]
  exact Int.emod_eq_of_lt h0 (Int.lt_of_lt_of_le h1 h2)

theorem reduce_natCast_toNat {d : Nat} (hd : d ≤ 16) (n : Nat) : (reduce d (n : Int)).toNat = n % 2 ^ d := by
  have := reduce_toNat hd (n : Int)
  exact_mod_cast this

/-- On non-negative integers the reduction is the AND with `q - 1` (R121). -/
theorem reduce_natCast_eq_and {d : Nat} (hd : d ≤ 16) (n : Nat) : (reduce d (n : Int)).toNat = n &&& (2 ^ d - 1) := by
  rw [reduce_natCast_toNat hd, Nat.and_two_pow_sub_one_eq_mod]

theorem reduce_lt {d : Nat} (hd : d ≤ 16) (v : Int) : (reduce d v).toNat < 2 ^ d := by
  have hpos : (0 : Int) < ((2 ^ d : Nat) : Int) := by exact_mod_cast Nat.pow_pos (by omega)
  have h1 := Int.emod_lt_of_pos v hpos
  rw [← reduce_toNat hd] at h1
  exact_mod_cast h1

/-- Congruent integers have one residue. -/
theorem reduce_congr {d : Nat} {v v' : Int} (h : v % ((2 ^ d : Nat) : Int) = v' % ((2 ^ d : Nat) : Int)) :
    reduce d v = reduce d v' := by rw [reduce, reduce, h]

/-- An entry below `q` is its own residue. -/
theorem reduce_of_lt {d : Nat} (e : Entry) (h : e.toNat < 2 ^ d) : reduce d (e.toNat : Int) = e := by
  have : ((e.toNat : Int) % ((2 ^ d : Nat) : Int)) = (e.toNat : Int) := by
    exact_mod_cast Nat.mod_eq_of_lt h
  rw [reduce, this]
  simp

end Sys2Proof.Machine
end

