-- ==== Sys2Proof/Laws/Decode.lean ====
section
/-! SUPPORT. Laws of commands: the value of an assembled command, its fields, and the must-be-zero bits. -/

namespace Sys2Proof

/-- A concatenation as a number. -/
theorem toNat_append_eq {m n : Nat} (x : BitVec m) (y : BitVec n) : (x ++ y).toNat = 2 ^ n * x.toNat + y.toNat := by
  rw [BitVec.toNat_append, ← Nat.shiftLeft_add_eq_or_of_lt y.isLt, Nat.shiftLeft_eq, Nat.mul_comm]

/-- The fields of R91 at their places. -/
theorem assembleFields_toNat (op md ma mb mc n1 n2 addr len : Nat) :
    (assembleFields op md ma mb mc n1 n2 addr len).toNat =
      op % 2 ^ 8 + 2 ^ 8 * (md % 2 ^ 4) + 2 ^ 12 * (ma % 2 ^ 4) + 2 ^ 16 * (mb % 2 ^ 4) + 2 ^ 20 * (mc % 2 ^ 4) +
        2 ^ 32 * (n1 % 2 ^ 16) + 2 ^ 48 * (n2 % 2 ^ 16) + 2 ^ 64 * (addr % 2 ^ 32) + 2 ^ 96 * (len % 2 ^ 32) := by
  simp only [assembleFields, toNat_append_eq, BitVec.toNat_ofNat]
  omega

theorem cmdField_eq (cmd : Command) (lo width : Nat) : cmdField cmd lo width = cmd.toNat / 2 ^ lo % 2 ^ width := by
  rw [cmdField, BitVec.extractLsb'_toNat, Nat.shiftRight_eq_div_pow]

section
variable (op md ma mb mc n1 n2 addr len : Nat)

@[simp] theorem cmdN1_assemble : cmdN1 (assembleFields op md ma mb mc n1 n2 addr len) = n1 % 2 ^ 16 := by
  rw [cmdN1, cmdField_eq, assembleFields_toNat]; omega

@[simp] theorem cmdN2_assemble : cmdN2 (assembleFields op md ma mb mc n1 n2 addr len) = n2 % 2 ^ 16 := by
  rw [cmdN2, cmdField_eq, assembleFields_toNat]; omega

@[simp] theorem cmdAddr_assemble : cmdAddr (assembleFields op md ma mb mc n1 n2 addr len) = addr % 2 ^ 32 := by
  rw [cmdAddr, cmdField_eq, assembleFields_toNat]; omega

@[simp] theorem cmdLen_assemble : cmdLen (assembleFields op md ma mb mc n1 n2 addr len) = len % 2 ^ 32 := by
  rw [cmdLen, cmdField_eq, assembleFields_toNat]; omega

end

section
variable (op : Nat) (md ma mb mc : Nat) (n1 n2 addr len : Nat)

theorem cmdReg_eq (cmd : Command) (lo : Nat) (r : MReg) (h : cmd.toNat / 2 ^ lo % 2 ^ 3 = r.val) : cmdReg cmd lo = r := by
  rw [cmdReg, cmdField_eq, h]; exact Fin.ofNat_val_eq_self r

@[simp] theorem cmdMd_assemble (r : MReg) : cmdMd (assembleFields op r.val ma mb mc n1 n2 addr len) = r := by
  refine cmdReg_eq _ _ _ ?_; rw [assembleFields_toNat]; omega

@[simp] theorem cmdMa_assemble (r : MReg) : cmdMa (assembleFields op md r.val mb mc n1 n2 addr len) = r := by
  refine cmdReg_eq _ _ _ ?_; rw [assembleFields_toNat]; omega

@[simp] theorem cmdMb_assemble (r : MReg) : cmdMb (assembleFields op md ma r.val mc n1 n2 addr len) = r := by
  refine cmdReg_eq _ _ _ ?_; rw [assembleFields_toNat]; omega

@[simp] theorem cmdMc_assemble (r : MReg) : cmdMc (assembleFields op md ma mb r.val n1 n2 addr len) = r := by
  refine cmdReg_eq _ _ _ ?_; rw [assembleFields_toNat]; omega

end

/-! ## Must-be-zero bits -/

/-- A mask or a pattern cut at the fields of R91. -/
def cutFields (op : BitVec 8) (md ma mb mc : BitVec 4) (z : BitVec 8) (n1 n2 : BitVec 16) (addr len : BitVec 32) :
    Command := len ++ addr ++ n2 ++ n1 ++ z ++ mc ++ mb ++ ma ++ md ++ op

theorem assembleFields_eq_cut (op md ma mb mc n1 n2 addr len : Nat) :
    assembleFields op md ma mb mc n1 n2 addr len =
      cutFields (BitVec.ofNat 8 op) (BitVec.ofNat 4 md) (BitVec.ofNat 4 ma) (BitVec.ofNat 4 mb) (BitVec.ofNat 4 mc) 0#8
        (BitVec.ofNat 16 n1) (BitVec.ofNat 16 n2) (BitVec.ofNat 32 addr) (BitVec.ofNat 32 len) := rfl

/-- The AND of two commands is the AND field by field. -/
theorem cutFields_and (op op' : BitVec 8) (md md' ma ma' mb mb' mc mc' : BitVec 4) (z z' : BitVec 8)
    (n1 n1' n2 n2' : BitVec 16) (addr addr' len len' : BitVec 32) :
    cutFields op md ma mb mc z n1 n2 addr len &&& cutFields op' md' ma' mb' mc' z' n1' n2' addr' len' =
      cutFields (op &&& op') (md &&& md') (ma &&& ma') (mb &&& mb') (mc &&& mc') (z &&& z') (n1 &&& n1') (n2 &&& n2')
        (addr &&& addr') (len &&& len') := by
  unfold cutFields
  refine BitVec.and_append.trans ?_
  simp only [BitVec.and_append]

/-- A command is the concatenation of its fields (R91). -/
theorem eq_cutFields (cmd : Command) : cmd = cutFields (cmd.extractLsb' 0 8) (cmd.extractLsb' 8 4) (cmd.extractLsb' 12 4)
    (cmd.extractLsb' 16 4) (cmd.extractLsb' 20 4) (cmd.extractLsb' 24 8) (cmd.extractLsb' 32 16) (cmd.extractLsb' 48 16)
    (cmd.extractLsb' 64 32) (cmd.extractLsb' 96 32) := by
  apply BitVec.eq_of_toNat_eq
  simp only [cutFields, toNat_append_eq, BitVec.extractLsb'_toNat, Nat.shiftRight_eq_div_pow]
  have hlt := cmd.isLt
  generalize cmd.toNat = x at *
  have cut : ∀ lo w, 2 ^ w * (x / 2 ^ (lo + w)) + x / 2 ^ lo % 2 ^ w = x / 2 ^ lo := fun lo w => by
    rw [pow_add, ← Nat.div_div_eq_div_mul]; exact Nat.div_add_mod _ _
  have top : x / 2 ^ 96 % 2 ^ 32 = x / 2 ^ 96 := Nat.mod_eq_of_lt (Nat.div_lt_of_lt_mul (by simpa using hlt))
  rw [top, cut 64 32, cut 48 16, cut 32 16, cut 24 8, cut 20 4, cut 16 4, cut 12 4, cut 8 4, cut 0 8, Nat.pow_zero,
    Nat.div_one]

/-- Equal commands have equal fields. -/
theorem cutFields_inj {op op' : BitVec 8} {md md' ma ma' mb mb' mc mc' : BitVec 4} {z z' : BitVec 8}
    {n1 n1' n2 n2' : BitVec 16} {addr addr' len len' : BitVec 32}
    (h : cutFields op md ma mb mc z n1 n2 addr len = cutFields op' md' ma' mb' mc' z' n1' n2' addr' len') :
    op = op' ∧ md = md' ∧ ma = ma' ∧ mb = mb' ∧ mc = mc' ∧ z = z' ∧ n1 = n1' ∧ n2 = n2' ∧ addr = addr' ∧ len = len' := by
  have := congrArg BitVec.toNat h
  simp only [cutFields, toNat_append_eq] at this
  refine ⟨?_, ?_, ?_, ?_, ?_, ?_, ?_, ?_, ?_, ?_⟩ <;> apply BitVec.eq_of_toNat_eq <;> omega

theorem maskZ_eq_cut : maskZ = cutFields 0xff#8 0xf#4 0xf#4 0xf#4 0xf#4 0xff#8 0xffff#16 0xffff#16 0xffffffff#32 0xffffffff#32 := by decide
theorem maskC_eq_cut : maskC = cutFields 0xff#8 0xf#4 0xf#4 0xf#4 0xf#4 0xff#8 0#16 0xffff#16 0#32 0xffffffff#32 := by decide
theorem maskD1_eq_cut : maskD1 = cutFields 0xff#8 8#4 0xf#4 0xf#4 0xf#4 0xff#8 0xffff#16 0xffff#16 0xffffffff#32 0xffffffff#32 := by decide
theorem maskA3_eq_cut : maskA3 = cutFields 0xff#8 8#4 8#4 8#4 0xf#4 0xff#8 0xffff#16 0xffff#16 0xffffffff#32 0xffffffff#32 := by decide
theorem maskA4_eq_cut : maskA4 = cutFields 0xff#8 8#4 8#4 8#4 8#4 0xff#8 0xffff#16 0xffff#16 0xffffffff#32 0xffffffff#32 := by decide
theorem maskL_eq_cut : maskL = cutFields 0xff#8 8#4 0xf#4 0xf#4 0xf#4 0xff#8 0#16 0#16 0#32 0#32 := by decide
theorem maskS_eq_cut : maskS = cutFields 0xff#8 0xf#4 8#4 0xf#4 0xf#4 0xff#8 0xffff#16 0xffff#16 0#32 0#32 := by decide

/-- The top bit of the field of a register m0 to m7 is 0 (R93). -/
theorem regField_and_top (r : MReg) : BitVec.ofNat 4 r.val &&& 8#4 = 0#4 := by revert r; decide

end Sys2Proof
end

