-- ==== Sys2Proof/Laws/Mat.lean ====
section
/-! SUPPORT. Laws of matrices built entry by entry. -/

namespace Sys2Proof.Machine

@[simp] theorem Mat.ofFn_rows (n1 n2 : Nat) (f : Nat → Nat → Entry) : (Mat.ofFn n1 n2 f).rows = n1 := rfl
@[simp] theorem Mat.ofFn_cols (n1 n2 : Nat) (f : Nat → Nat → Entry) : (Mat.ofFn n1 n2 f).cols = n2 := rfl

@[simp] theorem Mat.ofFn_length (n1 n2 : Nat) (f : Nat → Nat → Entry) : (Mat.ofFn n1 n2 f).entries.length = n1 * n2 := by
  simp [Mat.ofFn]

/-- A row-major index is inside the matrix. -/
theorem linearIndex_lt {r c n1 n2 : Nat} (hr : r < n1) (hc : c < n2) : r * n2 + c < n1 * n2 := by
  calc r * n2 + c < r * n2 + n2 := by omega
    _ = (r + 1) * n2 := by rw [Nat.add_mul, Nat.one_mul]
    _ ≤ n1 * n2 := Nat.mul_le_mul_right _ hr

theorem linearIndex_div {r c n2 : Nat} (hc : c < n2) : (r * n2 + c) / n2 = r := by
  rw [Nat.mul_comm, Nat.mul_add_div (by omega), Nat.div_eq_of_lt hc, Nat.add_zero]

theorem linearIndex_mod {r c n2 : Nat} (hc : c < n2) : (r * n2 + c) % n2 = c := by
  rw [Nat.mul_comm, Nat.mul_add_mod, Nat.mod_eq_of_lt hc]

theorem Mat.ofFn_at {n1 n2 : Nat} (f : Nat → Nat → Entry) {g : Nat} (hg : g < n1 * n2) :
    (Mat.ofFn n1 n2 f).at g = f (g / n2) (g % n2) := by
  simp [Mat.ofFn, Mat.at, List.getD_eq_getElem?_getD, hg]

/-- Entry `(r, c)` of a matrix built by `f` is `f r c` (R11). -/
theorem Mat.ofFn_entry {n1 n2 : Nat} (f : Nat → Nat → Entry) {r c : Nat} (hr : r < n1) (hc : c < n2) :
    (Mat.ofFn n1 n2 f).entry r c = f r c := by
  rw [Mat.entry, Mat.ofFn_cols, Mat.ofFn_at f (linearIndex_lt hr hc), linearIndex_div hc, linearIndex_mod hc]

theorem Mat.mem_ofFn {n1 n2 : Nat} {f : Nat → Nat → Entry} {e : Entry} (h : e ∈ (Mat.ofFn n1 n2 f).entries) :
    ∃ r c, r < n1 ∧ c < n2 ∧ e = f r c := by
  simp only [Mat.ofFn, List.mem_map, List.mem_range] at h
  obtain ⟨g, hg, rfl⟩ := h
  have hn2 : 0 < n2 := Nat.pos_of_ne_zero (by rintro rfl; simp at hg)
  exact ⟨g / n2, g % n2, Nat.div_lt_of_lt_mul (by rwa [Nat.mul_comm] at hg), Nat.mod_lt _ hn2, rfl⟩

theorem Mat.ofFn_congr {n1 n2 : Nat} {f f' : Nat → Nat → Entry}
    (h : ∀ r c, r < n1 → c < n2 → f r c = f' r c) : Mat.ofFn n1 n2 f = Mat.ofFn n1 n2 f' := by
  simp only [Mat.ofFn, Mat.mk.injEq, true_and]
  refine List.map_congr_left fun g hg => ?_
  rw [List.mem_range] at hg
  have hn2 : 0 < n2 := Nat.pos_of_ne_zero (by rintro rfl; simp at hg)
  exact h _ _ (Nat.div_lt_of_lt_mul (by rwa [Nat.mul_comm] at hg)) (Nat.mod_lt _ hn2)

/-- A matrix with as many entries as its shape says is built by its own entries. -/
theorem Mat.ofFn_self {M : Mat} (h : M.entries.length = M.rows * M.cols) :
    Mat.ofFn M.rows M.cols M.entry = M := by
  obtain ⟨rows, cols, entries⟩ := M
  simp only [Mat.ofFn, Mat.mk.injEq, true_and]
  refine List.ext_getElem (by simpa using h.symm) fun g h1 h2 => ?_
  simp only [List.getElem_map, List.getElem_range, Mat.entry, Mat.at]
  rw [Nat.mul_comm, Nat.div_add_mod]
  simp [List.getD_eq_getElem?_getD, h2]

/-- Two matrices of one shape, each with its entries, are equal when their entries are. -/
theorem Mat.ext_entry {M N : Mat} (hM : M.entries.length = M.rows * M.cols) (hN : N.entries.length = N.rows * N.cols)
    (hr : M.rows = N.rows) (hc : M.cols = N.cols)
    (he : ∀ r c, r < M.rows → c < M.cols → M.entry r c = N.entry r c) : M = N := by
  rw [← Mat.ofFn_self hM, ← Mat.ofFn_self hN, ← hr, ← hc]
  exact Mat.ofFn_congr he

theorem Mat.at_mem {M : Mat} {g : Nat} (hg : g < M.entries.length) : M.at g ∈ M.entries := by
  rw [Mat.at, List.getD_eq_getElem?_getD, List.getElem?_eq_getElem hg]
  exact List.getElem_mem hg

end Sys2Proof.Machine
end

