-- ==== Sys2Proof/Laws/State.lean ====
section
/-! SUPPORT. What each named update of the state does to each field: one lemma per field and update, true by
unfolding, so that no later proof unfolds a record update. -/

namespace Sys2Proof.Machine

variable (s : State)

@[simp] theorem State.setReg_m (i : MReg) (v : Option Mat) : (s.setReg i v).m = s.m.set i v := rfl
@[simp] theorem State.setReg_d (i : MReg) (v : Option Mat) : (s.setReg i v).d = s.d := rfl
@[simp] theorem State.setReg_b (i : MReg) (v : Option Mat) : (s.setReg i v).b = s.b := rfl
@[simp] theorem State.setReg_k (i : MReg) (v : Option Mat) : (s.setReg i v).k = s.k := rfl
@[simp] theorem State.setReg_x (i : MReg) (v : Option Mat) : (s.setReg i v).x = s.x := rfl
@[simp] theorem State.setReg_fault (i : MReg) (v : Option Mat) : (s.setReg i v).fault = s.fault := rfl
@[simp] theorem State.setReg_errcode (i : MReg) (v : Option Mat) : (s.setReg i v).errcode = s.errcode := rfl
@[simp] theorem State.setReg_errseq (i : MReg) (v : Option Mat) : (s.setReg i v).errseq = s.errseq := rfl
@[simp] theorem State.setReg_cseq (i : MReg) (v : Option Mat) : (s.setReg i v).cseq = s.cseq := rfl
@[simp] theorem State.setReg_buf (i : MReg) (v : Option Mat) : (s.setReg i v).buf = s.buf := rfl
@[simp] theorem State.setReg_params (i : MReg) (v : Option Mat) : (s.setReg i v).params = s.params := rfl
@[simp] theorem State.setReg_resets (i : MReg) (v : Option Mat) : (s.setReg i v).resets = s.resets := rfl
@[simp] theorem State.setReg_port (i : MReg) (v : Option Mat) : (s.setReg i v).port = s.port := rfl
@[simp] theorem State.setReg_reply (i : MReg) (v : Option Mat) : (s.setReg i v).reply = s.reply := rfl

@[simp] theorem State.clearRegs_m : (s.clearRegs).m = Vector.replicate 8 none := rfl
@[simp] theorem State.clearRegs_d : (s.clearRegs).d = s.d := rfl
@[simp] theorem State.clearRegs_b : (s.clearRegs).b = s.b := rfl
@[simp] theorem State.clearRegs_k : (s.clearRegs).k = s.k := rfl
@[simp] theorem State.clearRegs_x : (s.clearRegs).x = s.x := rfl
@[simp] theorem State.clearRegs_fault : (s.clearRegs).fault = s.fault := rfl
@[simp] theorem State.clearRegs_errcode : (s.clearRegs).errcode = s.errcode := rfl
@[simp] theorem State.clearRegs_errseq : (s.clearRegs).errseq = s.errseq := rfl
@[simp] theorem State.clearRegs_cseq : (s.clearRegs).cseq = s.cseq := rfl
@[simp] theorem State.clearRegs_buf : (s.clearRegs).buf = s.buf := rfl
@[simp] theorem State.clearRegs_params : (s.clearRegs).params = s.params := rfl
@[simp] theorem State.clearRegs_resets : (s.clearRegs).resets = s.resets := rfl
@[simp] theorem State.clearRegs_port : (s.clearRegs).port = s.port := rfl
@[simp] theorem State.clearRegs_reply : (s.clearRegs).reply = s.reply := rfl

@[simp] theorem State.writeBuf_m (addr : Nat) (bytes : List Byte) : (s.writeBuf addr bytes).m = s.m := rfl
@[simp] theorem State.writeBuf_d (addr : Nat) (bytes : List Byte) : (s.writeBuf addr bytes).d = s.d := rfl
@[simp] theorem State.writeBuf_b (addr : Nat) (bytes : List Byte) : (s.writeBuf addr bytes).b = s.b := rfl
@[simp] theorem State.writeBuf_k (addr : Nat) (bytes : List Byte) : (s.writeBuf addr bytes).k = s.k := rfl
@[simp] theorem State.writeBuf_x (addr : Nat) (bytes : List Byte) : (s.writeBuf addr bytes).x = s.x := rfl
@[simp] theorem State.writeBuf_fault (addr : Nat) (bytes : List Byte) : (s.writeBuf addr bytes).fault = s.fault := rfl
@[simp] theorem State.writeBuf_errcode (addr : Nat) (bytes : List Byte) : (s.writeBuf addr bytes).errcode = s.errcode := rfl
@[simp] theorem State.writeBuf_errseq (addr : Nat) (bytes : List Byte) : (s.writeBuf addr bytes).errseq = s.errseq := rfl
@[simp] theorem State.writeBuf_cseq (addr : Nat) (bytes : List Byte) : (s.writeBuf addr bytes).cseq = s.cseq := rfl
@[simp] theorem State.writeBuf_buf (addr : Nat) (bytes : List Byte) : (s.writeBuf addr bytes).buf = Memory.writeBytes s.buf addr bytes := rfl
@[simp] theorem State.writeBuf_params (addr : Nat) (bytes : List Byte) : (s.writeBuf addr bytes).params = s.params := rfl
@[simp] theorem State.writeBuf_resets (addr : Nat) (bytes : List Byte) : (s.writeBuf addr bytes).resets = s.resets := rfl
@[simp] theorem State.writeBuf_port (addr : Nat) (bytes : List Byte) : (s.writeBuf addr bytes).port = s.port := rfl
@[simp] theorem State.writeBuf_reply (addr : Nat) (bytes : List Byte) : (s.writeBuf addr bytes).reply = s.reply := rfl

@[simp] theorem State.setD_m (v : BitVec 5) : (s.setD v).m = s.m := rfl
@[simp] theorem State.setD_d (v : BitVec 5) : (s.setD v).d = v := rfl
@[simp] theorem State.setD_b (v : BitVec 5) : (s.setD v).b = s.b := rfl
@[simp] theorem State.setD_k (v : BitVec 5) : (s.setD v).k = s.k := rfl
@[simp] theorem State.setD_x (v : BitVec 5) : (s.setD v).x = s.x := rfl
@[simp] theorem State.setD_fault (v : BitVec 5) : (s.setD v).fault = s.fault := rfl
@[simp] theorem State.setD_errcode (v : BitVec 5) : (s.setD v).errcode = s.errcode := rfl
@[simp] theorem State.setD_errseq (v : BitVec 5) : (s.setD v).errseq = s.errseq := rfl
@[simp] theorem State.setD_cseq (v : BitVec 5) : (s.setD v).cseq = s.cseq := rfl
@[simp] theorem State.setD_buf (v : BitVec 5) : (s.setD v).buf = s.buf := rfl
@[simp] theorem State.setD_params (v : BitVec 5) : (s.setD v).params = s.params := rfl
@[simp] theorem State.setD_resets (v : BitVec 5) : (s.setD v).resets = s.resets := rfl
@[simp] theorem State.setD_port (v : BitVec 5) : (s.setD v).port = s.port := rfl
@[simp] theorem State.setD_reply (v : BitVec 5) : (s.setD v).reply = s.reply := rfl

@[simp] theorem State.setB_m (v : BitVec 5) : (s.setB v).m = s.m := rfl
@[simp] theorem State.setB_d (v : BitVec 5) : (s.setB v).d = s.d := rfl
@[simp] theorem State.setB_b (v : BitVec 5) : (s.setB v).b = v := rfl
@[simp] theorem State.setB_k (v : BitVec 5) : (s.setB v).k = s.k := rfl
@[simp] theorem State.setB_x (v : BitVec 5) : (s.setB v).x = s.x := rfl
@[simp] theorem State.setB_fault (v : BitVec 5) : (s.setB v).fault = s.fault := rfl
@[simp] theorem State.setB_errcode (v : BitVec 5) : (s.setB v).errcode = s.errcode := rfl
@[simp] theorem State.setB_errseq (v : BitVec 5) : (s.setB v).errseq = s.errseq := rfl
@[simp] theorem State.setB_cseq (v : BitVec 5) : (s.setB v).cseq = s.cseq := rfl
@[simp] theorem State.setB_buf (v : BitVec 5) : (s.setB v).buf = s.buf := rfl
@[simp] theorem State.setB_params (v : BitVec 5) : (s.setB v).params = s.params := rfl
@[simp] theorem State.setB_resets (v : BitVec 5) : (s.setB v).resets = s.resets := rfl
@[simp] theorem State.setB_port (v : BitVec 5) : (s.setB v).port = s.port := rfl
@[simp] theorem State.setB_reply (v : BitVec 5) : (s.setB v).reply = s.reply := rfl

@[simp] theorem State.setK_m (v : BitVec 5) : (s.setK v).m = s.m := rfl
@[simp] theorem State.setK_d (v : BitVec 5) : (s.setK v).d = s.d := rfl
@[simp] theorem State.setK_b (v : BitVec 5) : (s.setK v).b = s.b := rfl
@[simp] theorem State.setK_k (v : BitVec 5) : (s.setK v).k = v := rfl
@[simp] theorem State.setK_x (v : BitVec 5) : (s.setK v).x = s.x := rfl
@[simp] theorem State.setK_fault (v : BitVec 5) : (s.setK v).fault = s.fault := rfl
@[simp] theorem State.setK_errcode (v : BitVec 5) : (s.setK v).errcode = s.errcode := rfl
@[simp] theorem State.setK_errseq (v : BitVec 5) : (s.setK v).errseq = s.errseq := rfl
@[simp] theorem State.setK_cseq (v : BitVec 5) : (s.setK v).cseq = s.cseq := rfl
@[simp] theorem State.setK_buf (v : BitVec 5) : (s.setK v).buf = s.buf := rfl
@[simp] theorem State.setK_params (v : BitVec 5) : (s.setK v).params = s.params := rfl
@[simp] theorem State.setK_resets (v : BitVec 5) : (s.setK v).resets = s.resets := rfl
@[simp] theorem State.setK_port (v : BitVec 5) : (s.setK v).port = s.port := rfl
@[simp] theorem State.setK_reply (v : BitVec 5) : (s.setK v).reply = s.reply := rfl

@[simp] theorem State.setX_m (i : Fin 16) (v : BitVec 15) : (s.setX i v).m = s.m := rfl
@[simp] theorem State.setX_d (i : Fin 16) (v : BitVec 15) : (s.setX i v).d = s.d := rfl
@[simp] theorem State.setX_b (i : Fin 16) (v : BitVec 15) : (s.setX i v).b = s.b := rfl
@[simp] theorem State.setX_k (i : Fin 16) (v : BitVec 15) : (s.setX i v).k = s.k := rfl
@[simp] theorem State.setX_x (i : Fin 16) (v : BitVec 15) : (s.setX i v).x = s.x.set i v := rfl
@[simp] theorem State.setX_fault (i : Fin 16) (v : BitVec 15) : (s.setX i v).fault = s.fault := rfl
@[simp] theorem State.setX_errcode (i : Fin 16) (v : BitVec 15) : (s.setX i v).errcode = s.errcode := rfl
@[simp] theorem State.setX_errseq (i : Fin 16) (v : BitVec 15) : (s.setX i v).errseq = s.errseq := rfl
@[simp] theorem State.setX_cseq (i : Fin 16) (v : BitVec 15) : (s.setX i v).cseq = s.cseq := rfl
@[simp] theorem State.setX_buf (i : Fin 16) (v : BitVec 15) : (s.setX i v).buf = s.buf := rfl
@[simp] theorem State.setX_params (i : Fin 16) (v : BitVec 15) : (s.setX i v).params = s.params := rfl
@[simp] theorem State.setX_resets (i : Fin 16) (v : BitVec 15) : (s.setX i v).resets = s.resets := rfl
@[simp] theorem State.setX_port (i : Fin 16) (v : BitVec 15) : (s.setX i v).port = s.port := rfl
@[simp] theorem State.setX_reply (i : Fin 16) (v : BitVec 15) : (s.setX i v).reply = s.reply := rfl

@[simp] theorem State.answer_m (r : Reply) : (s.answer r).m = s.m := rfl
@[simp] theorem State.answer_d (r : Reply) : (s.answer r).d = s.d := rfl
@[simp] theorem State.answer_b (r : Reply) : (s.answer r).b = s.b := rfl
@[simp] theorem State.answer_k (r : Reply) : (s.answer r).k = s.k := rfl
@[simp] theorem State.answer_x (r : Reply) : (s.answer r).x = s.x := rfl
@[simp] theorem State.answer_fault (r : Reply) : (s.answer r).fault = s.fault := rfl
@[simp] theorem State.answer_errcode (r : Reply) : (s.answer r).errcode = s.errcode := rfl
@[simp] theorem State.answer_errseq (r : Reply) : (s.answer r).errseq = s.errseq := rfl
@[simp] theorem State.answer_cseq (r : Reply) : (s.answer r).cseq = s.cseq := rfl
@[simp] theorem State.answer_buf (r : Reply) : (s.answer r).buf = s.buf := rfl
@[simp] theorem State.answer_params (r : Reply) : (s.answer r).params = s.params := rfl
@[simp] theorem State.answer_resets (r : Reply) : (s.answer r).resets = s.resets := rfl
@[simp] theorem State.answer_port (r : Reply) : (s.answer r).port = s.port := rfl
@[simp] theorem State.answer_reply (r : Reply) : (s.answer r).reply = some r := rfl

@[simp] theorem State.accept_m (rest : List Transaction) : (s.accept rest).m = s.m := rfl
@[simp] theorem State.accept_d (rest : List Transaction) : (s.accept rest).d = s.d := rfl
@[simp] theorem State.accept_b (rest : List Transaction) : (s.accept rest).b = s.b := rfl
@[simp] theorem State.accept_k (rest : List Transaction) : (s.accept rest).k = s.k := rfl
@[simp] theorem State.accept_x (rest : List Transaction) : (s.accept rest).x = s.x := rfl
@[simp] theorem State.accept_fault (rest : List Transaction) : (s.accept rest).fault = s.fault := rfl
@[simp] theorem State.accept_errcode (rest : List Transaction) : (s.accept rest).errcode = s.errcode := rfl
@[simp] theorem State.accept_errseq (rest : List Transaction) : (s.accept rest).errseq = s.errseq := rfl
@[simp] theorem State.accept_cseq (rest : List Transaction) : (s.accept rest).cseq = s.cseq := rfl
@[simp] theorem State.accept_buf (rest : List Transaction) : (s.accept rest).buf = s.buf := rfl
@[simp] theorem State.accept_params (rest : List Transaction) : (s.accept rest).params = s.params := rfl
@[simp] theorem State.accept_resets (rest : List Transaction) : (s.accept rest).resets = s.resets := rfl
@[simp] theorem State.accept_port (rest : List Transaction) : (s.accept rest).port = rest := rfl
@[simp] theorem State.accept_reply (rest : List Transaction) : (s.accept rest).reply = none := rfl

@[simp] theorem State.issueNext_m (cmd : Command) : (s.issueNext cmd).m = s.m := rfl
@[simp] theorem State.issueNext_d (cmd : Command) : (s.issueNext cmd).d = s.d := rfl
@[simp] theorem State.issueNext_b (cmd : Command) : (s.issueNext cmd).b = s.b := rfl
@[simp] theorem State.issueNext_k (cmd : Command) : (s.issueNext cmd).k = s.k := rfl
@[simp] theorem State.issueNext_x (cmd : Command) : (s.issueNext cmd).x = s.x := rfl
@[simp] theorem State.issueNext_fault (cmd : Command) : (s.issueNext cmd).fault = s.fault := rfl
@[simp] theorem State.issueNext_errcode (cmd : Command) : (s.issueNext cmd).errcode = s.errcode := rfl
@[simp] theorem State.issueNext_errseq (cmd : Command) : (s.issueNext cmd).errseq = s.errseq := rfl
@[simp] theorem State.issueNext_cseq (cmd : Command) : (s.issueNext cmd).cseq = s.cseq := rfl
@[simp] theorem State.issueNext_buf (cmd : Command) : (s.issueNext cmd).buf = s.buf := rfl
@[simp] theorem State.issueNext_params (cmd : Command) : (s.issueNext cmd).params = s.params := rfl
@[simp] theorem State.issueNext_resets (cmd : Command) : (s.issueNext cmd).resets = s.resets := rfl
@[simp] theorem State.issueNext_port (cmd : Command) : (s.issueNext cmd).port = .issue cmd :: s.port := rfl
@[simp] theorem State.issueNext_reply (cmd : Command) : (s.issueNext cmd).reply = s.reply := rfl

@[simp] theorem State.count_m : (s.count).m = s.m := rfl
@[simp] theorem State.count_d : (s.count).d = s.d := rfl
@[simp] theorem State.count_b : (s.count).b = s.b := rfl
@[simp] theorem State.count_k : (s.count).k = s.k := rfl
@[simp] theorem State.count_x : (s.count).x = s.x := rfl
@[simp] theorem State.count_fault : (s.count).fault = s.fault := rfl
@[simp] theorem State.count_errcode : (s.count).errcode = s.errcode := rfl
@[simp] theorem State.count_errseq : (s.count).errseq = s.errseq := rfl
@[simp] theorem State.count_cseq : (s.count).cseq = s.cseq + 1 := rfl
@[simp] theorem State.count_buf : (s.count).buf = s.buf := rfl
@[simp] theorem State.count_params : (s.count).params = s.params := rfl
@[simp] theorem State.count_resets : (s.count).resets = s.resets := rfl
@[simp] theorem State.count_port : (s.count).port = s.port := rfl
@[simp] theorem State.count_reply : (s.count).reply = s.reply := rfl

@[simp] theorem State.takeFault_m (f : EngineFault) : (s.takeFault f).m = s.m := rfl
@[simp] theorem State.takeFault_d (f : EngineFault) : (s.takeFault f).d = s.d := rfl
@[simp] theorem State.takeFault_b (f : EngineFault) : (s.takeFault f).b = s.b := rfl
@[simp] theorem State.takeFault_k (f : EngineFault) : (s.takeFault f).k = s.k := rfl
@[simp] theorem State.takeFault_x (f : EngineFault) : (s.takeFault f).x = s.x := rfl
@[simp] theorem State.takeFault_fault (f : EngineFault) : (s.takeFault f).fault = true := rfl
@[simp] theorem State.takeFault_errcode (f : EngineFault) : (s.takeFault f).errcode = f.code := rfl
@[simp] theorem State.takeFault_errseq (f : EngineFault) : (s.takeFault f).errseq = s.cseq := rfl
@[simp] theorem State.takeFault_cseq (f : EngineFault) : (s.takeFault f).cseq = s.cseq := rfl
@[simp] theorem State.takeFault_buf (f : EngineFault) : (s.takeFault f).buf = s.buf := rfl
@[simp] theorem State.takeFault_params (f : EngineFault) : (s.takeFault f).params = s.params := rfl
@[simp] theorem State.takeFault_resets (f : EngineFault) : (s.takeFault f).resets = s.resets := rfl
@[simp] theorem State.takeFault_port (f : EngineFault) : (s.takeFault f).port = s.port := rfl
@[simp] theorem State.takeFault_reply (f : EngineFault) : (s.takeFault f).reply = s.reply := rfl

@[simp] theorem State.afterReset_m : (s.afterReset).m = Vector.replicate 8 none := rfl
@[simp] theorem State.afterReset_d : (s.afterReset).d = 0 := rfl
@[simp] theorem State.afterReset_b : (s.afterReset).b = 0 := rfl
@[simp] theorem State.afterReset_k : (s.afterReset).k = 0 := rfl
@[simp] theorem State.afterReset_x : (s.afterReset).x = Vector.replicate 16 0 := rfl
@[simp] theorem State.afterReset_fault : (s.afterReset).fault = false := rfl
@[simp] theorem State.afterReset_errcode : (s.afterReset).errcode = 0 := rfl
@[simp] theorem State.afterReset_errseq : (s.afterReset).errseq = 0 := rfl
@[simp] theorem State.afterReset_cseq : (s.afterReset).cseq = 0 := rfl
@[simp] theorem State.afterReset_buf : (s.afterReset).buf = [] := rfl
@[simp] theorem State.afterReset_params : (s.afterReset).params = s.params := rfl
@[simp] theorem State.afterReset_resets : (s.afterReset).resets = s.resets + 1 := rfl
@[simp] theorem State.afterReset_port : (s.afterReset).port = s.port := rfl
@[simp] theorem State.afterReset_reply : (s.afterReset).reply = s.reply := rfl

end Sys2Proof.Machine
end

