-- ==== Sys2Proof/Laws/Memory.lean ====
section
/-! SUPPORT. Laws of the memory list and of `BUF`: what a read sees after a write, and that every operation keeps
the canonical form. -/

namespace Sys2Proof.Machine

namespace Memory

@[simp] theorem lookup_write_same (mem : Memory) (a : Nat) (v : Byte) : lookup (write mem a v) a = some v := by
  induction mem with
  | nil => simp [write, lookup]
  | cons c rest ih =>
    by_cases h1 : a < c.1
    · simp [write, h1, lookup]
    · by_cases h2 : a = c.1
      · simp [write, h2, lookup]
      · simp [write, h1, h2, lookup, Ne.symm h2, ih]

theorem lookup_write_ne (mem : Memory) {a b : Nat} (v : Byte) (h : b ≠ a) :
    lookup (write mem a v) b = lookup mem b := by
  induction mem with
  | nil => simp [write, lookup, h.symm]
  | cons c rest ih =>
    by_cases h1 : a < c.1
    · simp [write, h1, lookup, h.symm]
    · by_cases h2 : a = c.1
      · subst h2; simp [write, lookup, h.symm]
      · simp [write, h1, h2, lookup, ih]

/-- An address below the region, or at or above its end, keeps its byte. -/
theorem lookup_writeBytes_outside (bytes : List Byte) (mem : Memory) (addr b : Nat)
    (h : b < addr ∨ addr + bytes.length ≤ b) : lookup (writeBytes mem addr bytes) b = lookup mem b := by
  induction bytes generalizing mem addr with
  | nil => rfl
  | cons v rest ih =>
    simp only [List.length_cons] at h
    rw [writeBytes, ih _ _ (by omega), lookup_write_ne _ _ (by omega)]

/-- An address of the region gets its byte of the sequence. -/
theorem lookup_writeBytes_inside (bytes : List Byte) (mem : Memory) (addr j : Nat) (h : j < bytes.length) :
    lookup (writeBytes mem addr bytes) (addr + j) = some (bytes[j]) := by
  induction bytes generalizing mem addr j with
  | nil => simp at h
  | cons v rest ih =>
    rw [writeBytes]
    cases j with
    | zero => rw [lookup_writeBytes_outside _ _ _ _ (by omega)]; simp
    | succ j =>
      have := ih (write mem addr v) (addr + 1) j (by simpa using h)
      simpa [Nat.add_assoc, Nat.add_comm 1 j] using this

theorem mem_write {mem : Memory} {a : Nat} {v : Byte} {c : Host.Cell} (h : c ∈ write mem a v) :
    c = (a, v) ∨ c ∈ mem := by
  induction mem with
  | nil => simpa [write] using h
  | cons c' rest ih =>
    unfold write at h
    split at h
    · simpa using h
    · split at h
      · simp only [List.mem_cons] at h ⊢; tauto
      · simp only [List.mem_cons] at h ⊢; tauto

/-- A write keeps the canonical form. -/
theorem wf_write {mem : Memory} (h : wf mem) (a : Nat) (v : Byte) : wf (write mem a v) := by
  induction mem with
  | nil => simp [write]
  | cons c rest ih =>
    obtain ⟨hc, hr⟩ := List.pairwise_cons.mp h
    unfold write
    split
    next h1 =>
      refine List.pairwise_cons.mpr ⟨fun c' hc' => ?_, h⟩
      rcases List.mem_cons.mp hc' with rfl | hm
      · exact h1
      · exact Nat.lt_trans h1 (hc c' hm)
    next h1 =>
      split
      next h2 => exact List.pairwise_cons.mpr ⟨fun c' hc' => by simpa [h2] using hc c' hc', hr⟩
      next h2 =>
        refine List.pairwise_cons.mpr ⟨fun c' hc' => ?_, ih hr⟩
        rcases mem_write hc' with rfl | hm
        · simp only; omega
        · exact hc c' hm

/-- A sequence of writes keeps the canonical form. -/
theorem wf_writeBytes {mem : Memory} (h : wf mem) (addr : Nat) (bytes : List Byte) :
    wf (writeBytes mem addr bytes) := by
  induction bytes generalizing mem addr with
  | nil => exact h
  | cons v rest ih => exact ih (wf_write h addr v) _

/-- What a sequence of writes lists is in its region or was listed before. -/
theorem mem_writeBytes {mem : Memory} {addr : Nat} {bytes : List Byte} {c : Host.Cell}
    (h : c ∈ writeBytes mem addr bytes) : (addr ≤ c.1 ∧ c.1 < addr + bytes.length) ∨ c ∈ mem := by
  induction bytes generalizing mem addr with
  | nil => exact .inr h
  | cons v rest ih =>
    simp only [List.length_cons]
    rcases ih h with h1 | h1
    · exact .inl (by omega)
    · rcases mem_write h1 with rfl | h2
      · exact .inl (by simp only; omega)
      · exact .inr h2

end Memory

/-! ## `BUF` -/

variable (s : State)

/-- An update that leaves the list and the draw alone leaves every byte alone. -/
theorem State.bufByte_congr {s t : State} (hb : t.buf = s.buf) (hr : t.resets = s.resets) (a : Nat) :
    t.bufByte a = s.bufByte a := by simp [State.bufByte, hb, hr]

theorem State.bufByte_writeBuf_outside (addr : Nat) (bytes : List Byte) (b : Nat)
    (h : b < addr ∨ addr + bytes.length ≤ b) : (s.writeBuf addr bytes).bufByte b = s.bufByte b := by
  simp [State.bufByte, Memory.lookup_writeBytes_outside _ _ _ _ h]

theorem State.bufByte_writeBuf_inside (addr : Nat) (bytes : List Byte) (j : Nat) (h : j < bytes.length) :
    (s.writeBuf addr bytes).bufByte (addr + j) = bytes[j] := by
  simp [State.bufByte, Memory.lookup_writeBytes_inside _ _ _ _ h]

/-- After a reset every byte of `BUF` is the fresh draw (R232). -/
theorem State.bufByte_afterReset (a : Nat) : s.afterReset.bufByte a = Config.bufDraw (s.resets + 1) a := by
  simp [State.bufByte, Memory.lookup]

end Sys2Proof.Machine
end

