-- ==== Sys2Proof/Laws/Ops.lean ====
section
/-! SUPPORT. What each shared operation can do, said once: it raises a fault of its list, or completes with the
effect it names. -/

namespace Sys2Proof.Machine

variable (s : State)

/-! ## Registers -/

theorem State.reg_setReg (i j : MReg) (v : Option Mat) : (s.setReg i v).reg j = if j = i then v else s.reg j := by
  simp only [State.reg, State.setReg, Fin.getElem_fin, Vector.getElem_set, Fin.ext_iff, eq_comm]

@[simp] theorem State.reg_setReg_same (i : MReg) (v : Option Mat) : (s.setReg i v).reg i = v := by
  simp [State.reg_setReg]

theorem State.reg_setReg_ne {i j : MReg} (v : Option Mat) (h : j ≠ i) : (s.setReg i v).reg j = s.reg j := by
  simp [State.reg_setReg, h]

@[simp] theorem State.reg_clearRegs (i : MReg) : s.clearRegs.reg i = none := by simp [State.reg]

/-- An update that leaves the register file alone leaves every register alone. -/
theorem State.reg_congr {s t : State} (h : t.m = s.m) (i : MReg) : t.reg i = s.reg i := by simp [State.reg, h]

@[simp] theorem State.reg_count (i : MReg) : s.count.reg i = s.reg i := rfl
@[simp] theorem State.reg_takeFault (f : EngineFault) (i : MReg) : (s.takeFault f).reg i = s.reg i := rfl
@[simp] theorem State.reg_writeBuf (addr : Nat) (bytes : List Byte) (i : MReg) :
    (s.writeBuf addr bytes).reg i = s.reg i := rfl
@[simp] theorem State.reg_setD (v : BitVec 5) (i : MReg) : (s.setD v).reg i = s.reg i := rfl
@[simp] theorem State.reg_setB (v : BitVec 5) (i : MReg) : (s.setB v).reg i = s.reg i := rfl
@[simp] theorem State.reg_setK (v : BitVec 5) (i : MReg) : (s.setK v).reg i = s.reg i := rfl
@[simp] theorem State.reg_setX (j : Fin 16) (v : BitVec 15) (i : MReg) : (s.setX j v).reg i = s.reg i := rfl
@[simp] theorem State.reg_answer (r : Reply) (i : MReg) : (s.answer r).reg i = s.reg i := rfl
@[simp] theorem State.reg_accept (rest : List Transaction) (i : MReg) : (s.accept rest).reg i = s.reg i := rfl
@[simp] theorem State.reg_afterReset (i : MReg) : s.afterReset.reg i = none := by simp [State.reg]

/-! ## Entry-wise commands -/

theorem entrywise_completes (op : Nat → Mat → Mat → Mat) (md ma mb : MReg) {A B : Mat} (hd : s.DReady)
    (ha : s.reg ma = some A) (hb : s.reg mb = some B) (hs : A.SameShape B) :
    entrywise op md ma mb s = .next (s.setReg md (some (op s.logQ A B))).count := by
  simp only [entrywise, ha, hb, if_neg (not_not.mpr hd), if_neg (not_not.mpr hs), complete]

theorem entrywise_badConfig (op : Nat → Mat → Mat → Mat) (md ma mb : MReg) (hd : ¬ s.DReady) :
    entrywise op md ma mb s = .next (s.takeFault .badConfig) := by
  simp only [entrywise, if_pos hd, raise]

theorem entrywise_emptyRegister (op : Nat → Mat → Mat → Mat) (md ma mb : MReg) (hd : s.DReady)
    (h : s.reg ma = none ∨ s.reg mb = none) :
    entrywise op md ma mb s = .next (s.takeFault .emptyRegister) := by
  simp only [entrywise, if_neg (not_not.mpr hd)]
  split
  next h1 h2 => simp [h1, h2] at h
  · rfl

theorem entrywise_dimensionMismatch (op : Nat → Mat → Mat → Mat) (md ma mb : MReg) {A B : Mat} (hd : s.DReady)
    (ha : s.reg ma = some A) (hb : s.reg mb = some B) (hs : ¬ A.SameShape B) :
    entrywise op md ma mb s = .next (s.takeFault .dimensionMismatch) := by
  simp only [entrywise, ha, hb, if_neg (not_not.mpr hd), if_pos hs, raise]

theorem entrywise_cases (op : Nat → Mat → Mat → Mat) (md ma mb : MReg) :
    (∃ f ∈ [EngineFault.badConfig, .emptyRegister, .dimensionMismatch],
      entrywise op md ma mb s = .next (s.takeFault f)) ∨
    ∃ A B, s.DReady ∧ s.reg ma = some A ∧ s.reg mb = some B ∧ A.SameShape B ∧
      entrywise op md ma mb s = .next (s.setReg md (some (op s.logQ A B))).count := by
  by_cases hd : s.DReady
  · by_cases he : s.reg ma = none ∨ s.reg mb = none
    · exact .inl ⟨.emptyRegister, by simp, entrywise_emptyRegister s op md ma mb hd he⟩
    · obtain ⟨⟨A, ha⟩, ⟨B, hb⟩⟩ := (not_or.mp he).imp Option.ne_none_iff_exists'.mp Option.ne_none_iff_exists'.mp
      by_cases hs : A.SameShape B
      · exact .inr ⟨A, B, hd, ha, hb, hs, entrywise_completes s op md ma mb hd ha hb hs⟩
      · exact .inl ⟨.dimensionMismatch, by simp, entrywise_dimensionMismatch s op md ma mb hd ha hb hs⟩
  · exact .inl ⟨.badConfig, by simp, entrywise_badConfig s op md ma mb hd⟩

/-! ## `MMAC` -/

theorem execMmac_completes (md ma mb mc : MReg) {A B E : Mat} (hd : s.DReady) (ha : s.reg ma = some A)
    (hb : s.reg mb = some B) (hc : s.reg mc = some E) (hs : MulShapes A B E) :
    execMmac md ma mb mc s = .next (s.setReg md (some (matMulAdd s.logQ A B E))).count := by
  simp only [execMmac, ha, hb, hc, if_neg (not_not.mpr hd), if_neg (not_not.mpr hs), complete]

theorem execMmac_badConfig (md ma mb mc : MReg) (hd : ¬ s.DReady) :
    execMmac md ma mb mc s = .next (s.takeFault .badConfig) := by
  simp only [execMmac, if_pos hd, raise]

theorem execMmac_emptyRegister (md ma mb mc : MReg) (hd : s.DReady)
    (h : s.reg ma = none ∨ s.reg mb = none ∨ s.reg mc = none) :
    execMmac md ma mb mc s = .next (s.takeFault .emptyRegister) := by
  simp only [execMmac, if_neg (not_not.mpr hd)]
  split
  next h1 h2 h3 => simp [h1, h2, h3] at h
  · rfl

theorem execMmac_dimensionMismatch (md ma mb mc : MReg) {A B E : Mat} (hd : s.DReady) (ha : s.reg ma = some A)
    (hb : s.reg mb = some B) (hc : s.reg mc = some E) (hs : ¬ MulShapes A B E) :
    execMmac md ma mb mc s = .next (s.takeFault .dimensionMismatch) := by
  simp only [execMmac, ha, hb, hc, if_neg (not_not.mpr hd), if_pos hs, raise]

theorem execMmac_cases (md ma mb mc : MReg) :
    (∃ f ∈ [EngineFault.badConfig, .emptyRegister, .dimensionMismatch],
      execMmac md ma mb mc s = .next (s.takeFault f)) ∨
    ∃ A B E, s.DReady ∧ s.reg ma = some A ∧ s.reg mb = some B ∧ s.reg mc = some E ∧ MulShapes A B E ∧
      execMmac md ma mb mc s = .next (s.setReg md (some (matMulAdd s.logQ A B E))).count := by
  by_cases hd : s.DReady
  · by_cases he : s.reg ma = none ∨ s.reg mb = none ∨ s.reg mc = none
    · exact .inl ⟨.emptyRegister, by simp, execMmac_emptyRegister s md ma mb mc hd he⟩
    · simp only [not_or, Option.ne_none_iff_exists'] at he
      obtain ⟨⟨A, ha⟩, ⟨B, hb⟩, ⟨E, hc⟩⟩ := he
      by_cases hs : MulShapes A B E
      · exact .inr ⟨A, B, E, hd, ha, hb, hc, hs, execMmac_completes s md ma mb mc hd ha hb hc hs⟩
      · exact .inl ⟨.dimensionMismatch, by simp, execMmac_dimensionMismatch s md ma mb mc hd ha hb hc hs⟩
  · exact .inl ⟨.badConfig, by simp, execMmac_badConfig s md ma mb mc hd⟩

/-! ## Format L -/

section
variable (ready lengthOk : Bool) (lengthFault : EngineFault) (entry : Nat → Entry) (md : MReg) (n1 n2 addr len : Nat)

theorem loadMat_completes (hr : ready = true) (hn : DimOk n1 ∧ DimOk n2) (hl : lengthOk = true)
    (ha : s.RegionOk addr len) :
    loadMat ready lengthOk lengthFault entry md n1 n2 addr len s =
      .next (s.setReg md (some (Mat.ofFn n1 n2 fun r c => entry (r * n2 + c)))).count := by
  subst hr hl
  simp only [loadMat, if_neg (not_not.mpr hn), if_neg (not_not.mpr ha), complete, if_false, reduceCtorEq]

theorem loadMat_badConfig (hr : ready = false) :
    loadMat ready lengthOk lengthFault entry md n1 n2 addr len s = .next (s.takeFault .badConfig) := by
  simp only [loadMat, if_pos hr, raise]

theorem loadMat_badDimension (hr : ready = true) (hn : ¬ (DimOk n1 ∧ DimOk n2)) :
    loadMat ready lengthOk lengthFault entry md n1 n2 addr len s = .next (s.takeFault .badDimension) := by
  subst hr
  simp only [loadMat, if_pos hn, raise, if_false, reduceCtorEq]

theorem loadMat_lengthFault (hr : ready = true) (hn : DimOk n1 ∧ DimOk n2) (hl : lengthOk = false) :
    loadMat ready lengthOk lengthFault entry md n1 n2 addr len s = .next (s.takeFault lengthFault) := by
  subst hr hl
  simp only [loadMat, if_neg (not_not.mpr hn), raise, if_true, if_false, reduceCtorEq]

theorem loadMat_addressRange (hr : ready = true) (hn : DimOk n1 ∧ DimOk n2) (hl : lengthOk = true)
    (ha : ¬ s.RegionOk addr len) :
    loadMat ready lengthOk lengthFault entry md n1 n2 addr len s = .next (s.takeFault .addressRange) := by
  subst hr hl
  simp only [loadMat, if_neg (not_not.mpr hn), if_pos ha, raise, if_false, reduceCtorEq]

theorem loadMat_cases :
    (∃ f ∈ [EngineFault.badConfig, .badDimension, lengthFault, .addressRange],
      loadMat ready lengthOk lengthFault entry md n1 n2 addr len s = .next (s.takeFault f)) ∨
    (ready = true ∧ (DimOk n1 ∧ DimOk n2) ∧ lengthOk = true ∧ s.RegionOk addr len ∧
      loadMat ready lengthOk lengthFault entry md n1 n2 addr len s =
        .next (s.setReg md (some (Mat.ofFn n1 n2 fun r c => entry (r * n2 + c)))).count) := by
  cases hr : ready with
  | false => exact .inl ⟨.badConfig, by simp, loadMat_badConfig s _ _ _ _ _ _ _ _ _ rfl⟩
  | true =>
    by_cases hn : DimOk n1 ∧ DimOk n2
    · cases hl : lengthOk with
      | false => exact .inl ⟨lengthFault, by simp, loadMat_lengthFault s _ _ _ _ _ _ _ _ _ rfl hn rfl⟩
      | true =>
        by_cases ha : s.RegionOk addr len
        · exact .inr ⟨rfl, hn, rfl, ha, loadMat_completes s _ _ _ _ _ _ _ _ _ rfl hn rfl ha⟩
        · exact .inl ⟨.addressRange, by simp, loadMat_addressRange s _ _ _ _ _ _ _ _ _ rfl hn rfl ha⟩
    · exact .inl ⟨.badDimension, by simp, loadMat_badDimension s _ _ _ _ _ _ _ _ _ rfl hn⟩

end

/-! ## Format S -/

section
variable (ready : Bool) (w : Nat) (value : Entry → Nat) (ma : MReg) (addr len : Nat)

theorem storeMat_completes {M : Mat} (hr : ready = true) (hm : s.reg ma = some M)
    (hl : 8 * len = w * M.rows * M.cols) (ha : s.RegionOk addr len) :
    storeMat ready w value ma addr len s =
      .next (s.writeBuf addr (bytesOfBits (packedBit w fun g => value (M.at g)) len)).count := by
  subst hr
  simp only [storeMat, hm, if_neg (not_not.mpr hl), if_neg (not_not.mpr ha), complete, ne_eq, if_false, reduceCtorEq]

theorem storeMat_badConfig (hr : ready = false) :
    storeMat ready w value ma addr len s = .next (s.takeFault .badConfig) := by
  simp only [storeMat, if_pos hr, raise]

theorem storeMat_emptyRegister (hr : ready = true) (hm : s.reg ma = none) :
    storeMat ready w value ma addr len s = .next (s.takeFault .emptyRegister) := by
  subst hr
  simp only [storeMat, hm, raise, if_false, reduceCtorEq]

theorem storeMat_badLength {M : Mat} (hr : ready = true) (hm : s.reg ma = some M)
    (hl : 8 * len ≠ w * M.rows * M.cols) :
    storeMat ready w value ma addr len s = .next (s.takeFault .badLength) := by
  subst hr
  simp only [storeMat, hm, if_pos hl, raise, if_false, reduceCtorEq]

theorem storeMat_addressRange {M : Mat} (hr : ready = true) (hm : s.reg ma = some M)
    (hl : 8 * len = w * M.rows * M.cols) (ha : ¬ s.RegionOk addr len) :
    storeMat ready w value ma addr len s = .next (s.takeFault .addressRange) := by
  subst hr
  simp only [storeMat, hm, if_neg (not_not.mpr hl), if_pos ha, raise, ne_eq, if_false, reduceCtorEq]

theorem storeMat_cases :
    (∃ f ∈ [EngineFault.badConfig, .emptyRegister, .badLength, .addressRange],
      storeMat ready w value ma addr len s = .next (s.takeFault f)) ∨
    ∃ M, ready = true ∧ s.reg ma = some M ∧ 8 * len = w * M.rows * M.cols ∧ s.RegionOk addr len ∧
      storeMat ready w value ma addr len s =
        .next (s.writeBuf addr (bytesOfBits (packedBit w fun g => value (M.at g)) len)).count := by
  cases hr : ready with
  | false => exact .inl ⟨.badConfig, by simp, storeMat_badConfig s _ _ _ _ _ _ rfl⟩
  | true =>
    cases hm : s.reg ma with
    | none => exact .inl ⟨.emptyRegister, by simp, storeMat_emptyRegister s _ _ _ _ _ _ rfl hm⟩
    | some M =>
      by_cases hl : 8 * len = w * M.rows * M.cols
      · by_cases ha : s.RegionOk addr len
        · exact .inr ⟨M, rfl, rfl, hl, ha, storeMat_completes s _ _ _ _ _ _ rfl hm hl ha⟩
        · exact .inl ⟨.addressRange, by simp, storeMat_addressRange s _ _ _ _ _ _ rfl hm hl ha⟩
      · exact .inl ⟨.badLength, by simp, storeMat_badLength s _ _ _ _ _ _ rfl hm hl⟩

end

/-! ## `CSRW` -/

theorem csrAt_eq_d {csr : Nat} : csrAt csr = some .d ↔ csr = 0x0000 := by
  unfold csrAt; repeat' split
  all_goals simp_all

theorem csrAt_eq_b {csr : Nat} : csrAt csr = some .b ↔ csr = 0x0001 := by
  unfold csrAt; repeat' split
  all_goals simp_all

theorem csrAt_eq_k {csr : Nat} : csrAt csr = some .k ↔ csr = 0x0002 := by
  unfold csrAt; repeat' split
  all_goals simp_all

/-- `CSRW` to `D` (R31, R186). -/
theorem execCsrw_d (value : Nat) : execCsrw 0x0000 value s =
    if ParamValueOk value then .next (s.clearRegs.setD (BitVec.ofNat 5 value)).count
    else .next (s.takeFault .badConfig) := rfl

/-- `CSRW` to `B` (R32, R186). -/
theorem execCsrw_b (value : Nat) : execCsrw 0x0001 value s =
    if ParamValueOk value then .next (s.setB (BitVec.ofNat 5 value)).count
    else .next (s.takeFault .badConfig) := rfl

/-- `CSRW` to `K` (R33, R186). -/
theorem execCsrw_k (value : Nat) : execCsrw 0x0002 value s =
    if ParamValueOk value then .next (s.setK (BitVec.ofNat 5 value)).count
    else .next (s.takeFault .badConfig) := rfl

theorem csrAt_x (i : Fin 16) : csrAt (0x0010 + i.val) = some (.x i) := by revert i; decide

theorem csrAt_eq_x {csr : Nat} {i : Fin 16} : csrAt csr = some (.x i) ↔ csr = 0x0010 + i.val := by
  refine ⟨fun h => ?_, fun h => h ▸ csrAt_x i⟩
  unfold csrAt at h
  repeat' split at h
  all_goals first | (simp at h; done) | skip
  simp only [Option.some.injEq, Csr.x.injEq] at h
  subst h
  simp only [Fin.ofNat]
  omega

/-- `CSRW` to `X_i` (R34, R186). -/
theorem execCsrw_x (i : Fin 16) (value : Nat) : execCsrw (0x0010 + i.val) value s =
    if value ≤ 32767 then .next (s.setX i (BitVec.ofNat 15 value)).count
    else .next (s.takeFault .badConfig) := by
  simp only [execCsrw, csrAt_x, complete, raise]

theorem execCsrw_cases (csr value : Nat) :
    (∃ f ∈ [EngineFault.illegalCommand, .badConfig], execCsrw csr value s = .next (s.takeFault f)) ∨
    (csr = 0x0000 ∧ ParamValueOk value ∧
      execCsrw csr value s = .next (s.clearRegs.setD (BitVec.ofNat 5 value)).count) ∨
    (csr = 0x0001 ∧ ParamValueOk value ∧ execCsrw csr value s = .next (s.setB (BitVec.ofNat 5 value)).count) ∨
    (csr = 0x0002 ∧ ParamValueOk value ∧ execCsrw csr value s = .next (s.setK (BitVec.ofNat 5 value)).count) ∨
    ∃ i, csrAt csr = some (.x i) ∧ value ≤ 32767 ∧
      execCsrw csr value s = .next (s.setX i (BitVec.ofNat 15 value)).count := by
  rw [← csrAt_eq_d, ← csrAt_eq_b, ← csrAt_eq_k]
  have bad : ∀ {r : Result}, (r = .next (s.takeFault .badConfig)) →
      ∃ f ∈ [EngineFault.illegalCommand, .badConfig], r = .next (s.takeFault f) :=
    fun h => ⟨.badConfig, by simp, h⟩
  cases h : csrAt csr with
  | none => exact .inl ⟨.illegalCommand, by simp, by simp only [execCsrw, h, raise]⟩
  | some c =>
    cases c with
    | d =>
      by_cases hv : ParamValueOk value
      · exact .inr (.inl ⟨rfl, hv, by simp only [execCsrw, h, if_pos hv, complete]⟩)
      · exact .inl (bad (by simp only [execCsrw, h, if_neg hv, raise]))
    | b =>
      by_cases hv : ParamValueOk value
      · exact .inr (.inr (.inl ⟨rfl, hv, by simp only [execCsrw, h, if_pos hv, complete]⟩))
      · exact .inl (bad (by simp only [execCsrw, h, if_neg hv, raise]))
    | k =>
      by_cases hv : ParamValueOk value
      · exact .inr (.inr (.inr (.inl ⟨rfl, hv, by simp only [execCsrw, h, if_pos hv, complete]⟩)))
      · exact .inl (bad (by simp only [execCsrw, h, if_neg hv, raise]))
    | x i =>
      by_cases hv : value ≤ 32767
      · exact .inr (.inr (.inr (.inr ⟨i, rfl, hv, by simp only [execCsrw, h, if_pos hv, complete]⟩)))
      · exact .inl (bad (by simp only [execCsrw, h, if_neg hv, raise]))
    | qmask => exact .inl ⟨.illegalCommand, by simp, by simp only [execCsrw, h, raise]⟩
    | status => exact .inl ⟨.illegalCommand, by simp, by simp only [execCsrw, h, raise]⟩
    | errcode => exact .inl ⟨.illegalCommand, by simp, by simp only [execCsrw, h, raise]⟩
    | errseq => exact .inl ⟨.illegalCommand, by simp, by simp only [execCsrw, h, raise]⟩
    | cseq => exact .inl ⟨.illegalCommand, by simp, by simp only [execCsrw, h, raise]⟩
    | mshape i => exact .inl ⟨.illegalCommand, by simp, by simp only [execCsrw, h, raise]⟩

/-! ## The engine and its port -/

@[simp] theorem exec_nop : exec .nop s = .next s.count := rfl
@[simp] theorem exec_mclr (md : MReg) : exec (.mclr md) s = .next (s.setReg md none).count := rfl

end Sys2Proof.Machine
end

