-- ==== Sys2Proof/Laws/Exec.lean ====
section
/-! SUPPORT. Every command, case by case: it raises a fault of its list (R216), or its checks hold and it completes
with the effect named here. -/

namespace Sys2Proof.Machine

variable (s : State)

/-- The command raises one of its faults. -/
abbrev Raises (i : Instr) : Prop := ∃ f ∈ faultsOf i, exec i s = .next (s.takeFault f)

theorem exec_csrw_cases (csr value : Nat) :
    Raises s (.csrw csr value) ∨
    (csr = 0x0000 ∧ ParamValueOk value ∧
      exec (.csrw csr value) s = .next (s.clearRegs.setD (BitVec.ofNat 5 value)).count) ∨
    (csr = 0x0001 ∧ ParamValueOk value ∧ exec (.csrw csr value) s = .next (s.setB (BitVec.ofNat 5 value)).count) ∨
    (csr = 0x0002 ∧ ParamValueOk value ∧ exec (.csrw csr value) s = .next (s.setK (BitVec.ofNat 5 value)).count) ∨
    ∃ i, csrAt csr = some (.x i) ∧ value ≤ 32767 ∧
      exec (.csrw csr value) s = .next (s.setX i (BitVec.ofNat 15 value)).count := execCsrw_cases s csr value

theorem exec_madd_cases (md ma mb : MReg) :
    Raises s (.madd md ma mb) ∨
    ∃ A B, s.DReady ∧ s.reg ma = some A ∧ s.reg mb = some B ∧ A.SameShape B ∧
      exec (.madd md ma mb) s = .next (s.setReg md (some (matAdd s.logQ A B))).count :=
  entrywise_cases s matAdd md ma mb

theorem exec_msub_cases (md ma mb : MReg) :
    Raises s (.msub md ma mb) ∨
    ∃ A B, s.DReady ∧ s.reg ma = some A ∧ s.reg mb = some B ∧ A.SameShape B ∧
      exec (.msub md ma mb) s = .next (s.setReg md (some (matSub s.logQ A B))).count :=
  entrywise_cases s matSub md ma mb

theorem exec_mmac_cases (md ma mb mc : MReg) :
    Raises s (.mmac md ma mb mc) ∨
    ∃ A B E, s.DReady ∧ s.reg ma = some A ∧ s.reg mb = some B ∧ s.reg mc = some E ∧ MulShapes A B E ∧
      exec (.mmac md ma mb mc) s = .next (s.setReg md (some (matMulAdd s.logQ A B E))).count :=
  execMmac_cases s md ma mb mc

/-! The matrices of the format-L commands, from the bytes of the region. -/

/-- The matrix `ENC` builds (R146). -/
def encMat (n1 n2 addr : Nat) : Mat := Mat.ofFn n1 n2 fun r c =>
  ec s.logQ s.b.toNat (s.bitField addr ((r * n2 + c) * s.b.toNat) s.b.toNat)

/-- The matrix `UNPK` builds (R151). -/
def unpkMat (n1 n2 addr : Nat) : Mat := Mat.ofFn n1 n2 fun r c =>
  BitVec.ofNat 16 (s.bitField addr ((r * n2 + c) * s.logQ) s.logQ)

/-- The matrix `LDBE` builds (R188). -/
def ldbeMat (n1 n2 addr : Nat) : Mat := Mat.ofFn n1 n2 fun r c => reduce s.logQ (s.chunk addr (r * n2 + c))

/-- The matrix `SAMP` builds (R173). -/
def sampMat (n1 n2 addr : Nat) : Mat := Mat.ofFn n1 n2 fun r c =>
  sample s.logQ s.thresholds (s.chunk addr (r * n2 + c))

theorem exec_enc_cases (md : MReg) (n1 n2 addr len : Nat) :
    Raises s (.enc md n1 n2 addr len) ∨
    ((s.DReady ∧ s.BReady) ∧ (DimOk n1 ∧ DimOk n2) ∧ 8 * len = s.b.toNat * n1 * n2 ∧ s.RegionOk addr len ∧
      exec (.enc md n1 n2 addr len) s = .next (s.setReg md (some (encMat s n1 n2 addr))).count) := by
  rcases loadMat_cases s (decide (s.DReady ∧ s.BReady)) (8 * len == s.b.toNat * n1 * n2) .badLength
    (fun g => ec s.logQ s.b.toNat (s.bitField addr (g * s.b.toNat) s.b.toNat)) md n1 n2 addr len with h | h
  · exact .inl h
  · exact .inr ⟨of_decide_eq_true h.1, h.2.1, eq_of_beq h.2.2.1, h.2.2.2.1, h.2.2.2.2⟩

theorem exec_unpk_cases (md : MReg) (n1 n2 addr len : Nat) :
    Raises s (.unpk md n1 n2 addr len) ∨
    (s.DReady ∧ (DimOk n1 ∧ DimOk n2) ∧ 8 * len = s.logQ * n1 * n2 ∧ s.RegionOk addr len ∧
      exec (.unpk md n1 n2 addr len) s = .next (s.setReg md (some (unpkMat s n1 n2 addr))).count) := by
  rcases loadMat_cases s (decide s.DReady) (8 * len == s.logQ * n1 * n2) .malformedCiphertext
    (fun g => BitVec.ofNat 16 (s.bitField addr (g * s.logQ) s.logQ)) md n1 n2 addr len with h | h
  · exact .inl h
  · exact .inr ⟨of_decide_eq_true h.1, h.2.1, eq_of_beq h.2.2.1, h.2.2.2.1, h.2.2.2.2⟩

theorem exec_ldbe_cases (md : MReg) (n1 n2 addr len : Nat) :
    Raises s (.ldbe md n1 n2 addr len) ∨
    (s.DReady ∧ (DimOk n1 ∧ DimOk n2) ∧ len = 2 * n1 * n2 ∧ s.RegionOk addr len ∧
      exec (.ldbe md n1 n2 addr len) s = .next (s.setReg md (some (ldbeMat s n1 n2 addr))).count) := by
  rcases loadMat_cases s (decide s.DReady) (len == 2 * n1 * n2) .badLength
    (fun g => reduce s.logQ (s.chunk addr g)) md n1 n2 addr len with h | h
  · exact .inl h
  · exact .inr ⟨of_decide_eq_true h.1, h.2.1, eq_of_beq h.2.2.1, h.2.2.2.1, h.2.2.2.2⟩

theorem exec_samp_cases (md : MReg) (n1 n2 addr len : Nat) :
    Raises s (.samp md n1 n2 addr len) ∨
    ((s.DReady ∧ s.KReady) ∧ (DimOk n1 ∧ DimOk n2) ∧ 2 * n1 * n2 ≤ len ∧ s.RegionOk addr len ∧
      exec (.samp md n1 n2 addr len) s = .next (s.setReg md (some (sampMat s n1 n2 addr))).count) := by
  rcases loadMat_cases s (decide (s.DReady ∧ s.KReady)) (decide (2 * n1 * n2 ≤ len)) .insufficientRandomness
    (fun g => sample s.logQ s.thresholds (s.chunk addr g)) md n1 n2 addr len with h | h
  · exact .inl h
  · exact .inr ⟨of_decide_eq_true h.1, h.2.1, of_decide_eq_true h.2.2.1, h.2.2.2.1, h.2.2.2.2⟩

/-! The bytes of the format-S commands, from the entries of the register. -/

/-- The bytes `DEC` writes (R147). -/
def decBytes (M : Mat) (len : Nat) : List Byte :=
  bytesOfBits (packedBit s.b.toNat fun g => dc s.logQ s.b.toNat (M.at g).toNat) len

/-- The bytes `PACK` writes (R150). -/
def packBytes (M : Mat) (len : Nat) : List Byte := bytesOfBits (packedBit s.logQ fun g => (M.at g).toNat) len

@[simp] theorem length_decBytes (M : Mat) (len : Nat) : (decBytes s M len).length = len := length_bytesOfBits ..
@[simp] theorem length_packBytes (M : Mat) (len : Nat) : (packBytes s M len).length = len := length_bytesOfBits ..

theorem exec_dec_cases (ma : MReg) (addr len : Nat) :
    Raises s (.dec ma addr len) ∨
    ∃ M, (s.DReady ∧ s.BReady) ∧ s.reg ma = some M ∧ 8 * len = s.b.toNat * M.rows * M.cols ∧ s.RegionOk addr len ∧
      exec (.dec ma addr len) s = .next (s.writeBuf addr (decBytes s M len)).count := by
  rcases storeMat_cases s (decide (s.DReady ∧ s.BReady)) s.b.toNat (fun c => dc s.logQ s.b.toNat c.toNat) ma addr len
    with h | ⟨M, h⟩
  · exact .inl h
  · exact .inr ⟨M, of_decide_eq_true h.1, h.2⟩

theorem exec_pack_cases (ma : MReg) (addr len : Nat) :
    Raises s (.pack ma addr len) ∨
    ∃ M, s.DReady ∧ s.reg ma = some M ∧ 8 * len = s.logQ * M.rows * M.cols ∧ s.RegionOk addr len ∧
      exec (.pack ma addr len) s = .next (s.writeBuf addr (packBytes s M len)).count := by
  rcases storeMat_cases s (decide s.DReady) s.logQ (fun c => c.toNat) ma addr len with h | ⟨M, h⟩
  · exact .inl h
  · exact .inr ⟨M, of_decide_eq_true h.1, h.2⟩

/-! ## All commands at once -/

/-- `Effect s i u`: the checks of `i` hold in `s`, and `u` is `s` with the effect of `i` (R98 step 4), not yet counted. -/
inductive Effect (s : State) : Instr → State → Prop
  | nop : Effect s .nop s
  | csrwD {value : Nat} (hv : ParamValueOk value) :
    Effect s (.csrw 0x0000 value) (s.clearRegs.setD (BitVec.ofNat 5 value))
  | csrwB {value : Nat} (hv : ParamValueOk value) : Effect s (.csrw 0x0001 value) (s.setB (BitVec.ofNat 5 value))
  | csrwK {value : Nat} (hv : ParamValueOk value) : Effect s (.csrw 0x0002 value) (s.setK (BitVec.ofNat 5 value))
  | csrwX {csr value : Nat} {i : Fin 16} (hi : csrAt csr = some (.x i)) (hv : value ≤ 32767) :
    Effect s (.csrw csr value) (s.setX i (BitVec.ofNat 15 value))
  | mclr {md : MReg} : Effect s (.mclr md) (s.setReg md none)
  | madd {md ma mb : MReg} {A B : Mat} (hd : s.DReady) (ha : s.reg ma = some A) (hb : s.reg mb = some B)
    (hs : A.SameShape B) : Effect s (.madd md ma mb) (s.setReg md (some (matAdd s.logQ A B)))
  | msub {md ma mb : MReg} {A B : Mat} (hd : s.DReady) (ha : s.reg ma = some A) (hb : s.reg mb = some B)
    (hs : A.SameShape B) : Effect s (.msub md ma mb) (s.setReg md (some (matSub s.logQ A B)))
  | mmac {md ma mb mc : MReg} {A B E : Mat} (hd : s.DReady) (ha : s.reg ma = some A) (hb : s.reg mb = some B)
    (hc : s.reg mc = some E) (hs : MulShapes A B E) :
    Effect s (.mmac md ma mb mc) (s.setReg md (some (matMulAdd s.logQ A B E)))
  | enc {md : MReg} {n1 n2 addr len : Nat} (hd : s.DReady ∧ s.BReady) (hn : DimOk n1 ∧ DimOk n2)
    (hl : 8 * len = s.b.toNat * n1 * n2) (ha : s.RegionOk addr len) :
    Effect s (.enc md n1 n2 addr len) (s.setReg md (some (encMat s n1 n2 addr)))
  | dec {ma : MReg} {addr len : Nat} {M : Mat} (hd : s.DReady ∧ s.BReady) (hm : s.reg ma = some M)
    (hl : 8 * len = s.b.toNat * M.rows * M.cols) (ha : s.RegionOk addr len) :
    Effect s (.dec ma addr len) (s.writeBuf addr (decBytes s M len))
  | pack {ma : MReg} {addr len : Nat} {M : Mat} (hd : s.DReady) (hm : s.reg ma = some M)
    (hl : 8 * len = s.logQ * M.rows * M.cols) (ha : s.RegionOk addr len) :
    Effect s (.pack ma addr len) (s.writeBuf addr (packBytes s M len))
  | unpk {md : MReg} {n1 n2 addr len : Nat} (hd : s.DReady) (hn : DimOk n1 ∧ DimOk n2)
    (hl : 8 * len = s.logQ * n1 * n2) (ha : s.RegionOk addr len) :
    Effect s (.unpk md n1 n2 addr len) (s.setReg md (some (unpkMat s n1 n2 addr)))
  | ldbe {md : MReg} {n1 n2 addr len : Nat} (hd : s.DReady) (hn : DimOk n1 ∧ DimOk n2)
    (hl : len = 2 * n1 * n2) (ha : s.RegionOk addr len) :
    Effect s (.ldbe md n1 n2 addr len) (s.setReg md (some (ldbeMat s n1 n2 addr)))
  | samp {md : MReg} {n1 n2 addr len : Nat} (hd : s.DReady ∧ s.KReady) (hn : DimOk n1 ∧ DimOk n2)
    (hl : 2 * n1 * n2 ≤ len) (ha : s.RegionOk addr len) :
    Effect s (.samp md n1 n2 addr len) (s.setReg md (some (sampMat s n1 n2 addr)))

/-- A command raises one of its faults, or has its effect and counts. -/
theorem exec_cases (i : Instr) : Raises s i ∨ ∃ u, Effect s i u ∧ exec i s = .next u.count := by
  cases i with
  | nop => exact .inr ⟨s, .nop, rfl⟩
  | csrw csr value =>
    rcases exec_csrw_cases s csr value with h | ⟨rfl, hv, h⟩ | ⟨rfl, hv, h⟩ | ⟨rfl, hv, h⟩ | ⟨i, hi, hv, h⟩
    · exact .inl h
    · exact .inr ⟨_, .csrwD hv, h⟩
    · exact .inr ⟨_, .csrwB hv, h⟩
    · exact .inr ⟨_, .csrwK hv, h⟩
    · exact .inr ⟨_, .csrwX hi hv, h⟩
  | mclr md => exact .inr ⟨_, .mclr, exec_mclr s md⟩
  | madd md ma mb => exact (exec_madd_cases s md ma mb).imp_right fun ⟨_, _, hd, ha, hb, hs, h⟩ => ⟨_, .madd hd ha hb hs, h⟩
  | msub md ma mb => exact (exec_msub_cases s md ma mb).imp_right fun ⟨_, _, hd, ha, hb, hs, h⟩ => ⟨_, .msub hd ha hb hs, h⟩
  | mmac md ma mb mc =>
    exact (exec_mmac_cases s md ma mb mc).imp_right fun ⟨_, _, _, hd, ha, hb, hc, hs, h⟩ => ⟨_, .mmac hd ha hb hc hs, h⟩
  | enc md n1 n2 addr len =>
    exact (exec_enc_cases s md n1 n2 addr len).imp_right fun ⟨hd, hn, hl, ha, h⟩ => ⟨_, .enc hd hn hl ha, h⟩
  | dec ma addr len =>
    exact (exec_dec_cases s ma addr len).imp_right fun ⟨_, hd, hm, hl, ha, h⟩ => ⟨_, .dec hd hm hl ha, h⟩
  | pack ma addr len =>
    exact (exec_pack_cases s ma addr len).imp_right fun ⟨_, hd, hm, hl, ha, h⟩ => ⟨_, .pack hd hm hl ha, h⟩
  | unpk md n1 n2 addr len =>
    exact (exec_unpk_cases s md n1 n2 addr len).imp_right fun ⟨hd, hn, hl, ha, h⟩ => ⟨_, .unpk hd hn hl ha, h⟩
  | ldbe md n1 n2 addr len =>
    exact (exec_ldbe_cases s md n1 n2 addr len).imp_right fun ⟨hd, hn, hl, ha, h⟩ => ⟨_, .ldbe hd hn hl ha, h⟩
  | samp md n1 n2 addr len =>
    exact (exec_samp_cases s md n1 n2 addr len).imp_right fun ⟨hd, hn, hl, ha, h⟩ => ⟨_, .samp hd hn hl ha, h⟩

variable {s} {i : Instr} {u : State}

/-- A command whose checks hold completes with its effect (R98 step 5). -/
theorem exec_of_effect (h : Effect s i u) : exec i s = .next u.count := by
  cases h with
  | nop => rfl
  | csrwD hv => exact (execCsrw_d s _).trans (if_pos hv)
  | csrwB hv => exact (execCsrw_b s _).trans (if_pos hv)
  | csrwK hv => exact (execCsrw_k s _).trans (if_pos hv)
  | csrwX hi hv => simp only [exec, execCsrw, hi, if_pos hv, complete]
  | mclr => rfl
  | madd hd ha hb hs => exact entrywise_completes s matAdd _ _ _ hd ha hb hs
  | msub hd ha hb hs => exact entrywise_completes s matSub _ _ _ hd ha hb hs
  | mmac hd ha hb hc hs => exact execMmac_completes s _ _ _ _ hd ha hb hc hs
  | enc hd hn hl ha => rw [exec, execEnc]; exact loadMat_completes s _ _ _ _ _ _ _ _ _ (decide_eq_true hd) hn (beq_iff_eq.mpr hl) ha
  | dec hd hm hl ha => rw [exec, execDec]; exact storeMat_completes s _ _ _ _ _ _ (decide_eq_true hd) hm hl ha
  | pack hd hm hl ha => rw [exec, execPack]; exact storeMat_completes s _ _ _ _ _ _ (decide_eq_true hd) hm hl ha
  | unpk hd hn hl ha => rw [exec, execUnpk]; exact loadMat_completes s _ _ _ _ _ _ _ _ _ (decide_eq_true hd) hn (beq_iff_eq.mpr hl) ha
  | ldbe hd hn hl ha => rw [exec, execLdbe]; exact loadMat_completes s _ _ _ _ _ _ _ _ _ (decide_eq_true hd) hn (beq_iff_eq.mpr hl) ha
  | samp hd hn hl ha => rw [exec, execSamp]; exact loadMat_completes s _ _ _ _ _ _ _ _ _ (decide_eq_true hd) hn (decide_eq_true hl) ha

/-- An effect never touches the fault registers, the count, the parameter or the port (R204, R39, R42). -/
theorem Effect.kept (h : Effect s i u) : u.fault = s.fault ∧ u.errcode = s.errcode ∧ u.errseq = s.errseq ∧
    u.cseq = s.cseq ∧ u.params = s.params ∧ u.resets = s.resets ∧ u.port = s.port ∧ u.reply = s.reply := by
  cases h <;> exact ⟨rfl, rfl, rfl, rfl, rfl, rfl, rfl, rfl⟩

end Sys2Proof.Machine
end

