-- ==== Sys2Proof/Laws/PerInstr.lean ====
section
/-! SUPPORT. Statements made per instruction. `EncodeMatchesRow`: the command of a well-formed instruction matches
the row of its own mnemonic (R96), and that row reads the instruction back (R91, R92). -/

namespace Sys2Proof.Laws.EncodeMatchesRow

/-- The mnemonic of the row of R95 an instruction belongs to. -/
def mnemonicOf : Instr → String
  | .nop => "NOP"
  | .csrw _ _ => "CSRW"
  | .mclr _ => "MCLR"
  | .madd _ _ _ => "MADD"
  | .msub _ _ _ => "MSUB"
  | .mmac _ _ _ _ => "MMAC"
  | .enc _ _ _ _ _ => "ENC"
  | .dec _ _ _ => "DEC"
  | .pack _ _ _ => "PACK"
  | .unpk _ _ _ _ _ => "UNPK"
  | .ldbe _ _ _ _ _ => "LDBE"
  | .samp _ _ _ _ _ => "SAMP"

/-- The instruction's own row matches its command, and reads it back. -/
def Statement (i : Instr) : Prop :=
  i.WellFormed → ∃ r ∈ opcodeTable, r.mnemonic = mnemonicOf i ∧ rowMatches (encode i) r = true ∧ r.read (encode i) = i

theorem nop : Statement .nop := fun _ => ⟨_, .head _, rfl, by decide, rfl⟩

theorem csrw (csr value : Nat) : Statement (.csrw csr value) := fun h => by
  simp only [Instr.WellFormed, Instr.wellFormed, fits16, fits32, Bool.and_eq_true, decide_eq_true_eq] at h
  refine ⟨_, .tail _ (.head _), rfl, ?_, ?_⟩
  · simp only [rowMatches, encode, assembleFields_eq_cut, maskC_eq_cut, cutFields_and, beq_iff_eq, BitVec.and_zero]
    rfl
  · simp only [encode, cmdN1_assemble, cmdAddr_assemble, Nat.mod_eq_of_lt h.1, Nat.mod_eq_of_lt h.2]

theorem mclr (md : MReg) : Statement (.mclr md) := fun _ => by
  refine ⟨_, .tail _ (.tail _ (.head _)), rfl, ?_, ?_⟩
  · simp only [rowMatches, encode, assembleFields_eq_cut, maskD1_eq_cut, cutFields_and, beq_iff_eq, regField_and_top]
    rfl
  · simp only [encode, cmdMd_assemble]

/-- Format A3 with the bits of `mask` and the opcode of its row. -/
theorem matches_A3 (op : Nat) (md ma mb : MReg) :
    encodeA op md ma mb 0 &&& maskA3 = cutFields (BitVec.ofNat 8 op &&& 0xff#8) 0#4 0#4 0#4 0#4 0#8 0#16 0#16 0#32 0#32 := by
  simp only [encodeA, assembleFields_eq_cut, maskA3_eq_cut, cutFields_and, regField_and_top]
  rfl

theorem madd (md ma mb : MReg) : Statement (.madd md ma mb) := fun _ => by
  refine ⟨_, .tail _ (.tail _ (.tail _ (.head _))), rfl, ?_, ?_⟩
  · simp only [rowMatches, encode, matches_A3, beq_iff_eq]; rfl
  · simp only [encode, encodeA, readA3, cmdMd_assemble, cmdMa_assemble, cmdMb_assemble]

theorem msub (md ma mb : MReg) : Statement (.msub md ma mb) := fun _ => by
  refine ⟨_, .tail _ (.tail _ (.tail _ (.tail _ (.head _)))), rfl, ?_, ?_⟩
  · simp only [rowMatches, encode, matches_A3, beq_iff_eq]; rfl
  · simp only [encode, encodeA, readA3, cmdMd_assemble, cmdMa_assemble, cmdMb_assemble]

theorem mmac (md ma mb mc : MReg) : Statement (.mmac md ma mb mc) := fun _ => by
  refine ⟨_, .tail _ (.tail _ (.tail _ (.tail _ (.tail _ (.head _))))), rfl, ?_, ?_⟩
  · simp only [rowMatches, encode, encodeA, assembleFields_eq_cut, maskA4_eq_cut, cutFields_and, beq_iff_eq,
      regField_and_top]
    rfl
  · simp only [encode, encodeA, cmdMd_assemble, cmdMa_assemble, cmdMb_assemble, cmdMc_assemble]

/-- Format L with the opcode of its row. -/
theorem matches_L (op : Nat) (md : MReg) (n1 n2 addr len : Nat) :
    encodeL op md n1 n2 addr len &&& maskL = cutFields (BitVec.ofNat 8 op &&& 0xff#8) 0#4 0#4 0#4 0#4 0#8 0#16 0#16 0#32 0#32 := by
  simp only [encodeL, assembleFields_eq_cut, maskL_eq_cut, cutFields_and, regField_and_top, BitVec.and_zero]
  rfl

/-- Format L reads back its operands when they fit. -/
theorem read_L (mk : MReg → Nat → Nat → Nat → Nat → Instr) (op : Nat) (md : MReg) {n1 n2 addr len : Nat}
    (h : fitsL n1 n2 addr len = true) : readL mk (encodeL op md n1 n2 addr len) = mk md n1 n2 addr len := by
  simp only [fitsL, fits16, fits32, Bool.and_eq_true, decide_eq_true_eq] at h
  obtain ⟨⟨⟨h1, h2⟩, h3⟩, h4⟩ := h
  simp only [readL, encodeL, cmdMd_assemble, cmdN1_assemble, cmdN2_assemble, cmdAddr_assemble, cmdLen_assemble,
    Nat.mod_eq_of_lt h1, Nat.mod_eq_of_lt h2, Nat.mod_eq_of_lt h3, Nat.mod_eq_of_lt h4]

/-- Format S with the opcode of its row. -/
theorem matches_S (op : Nat) (ma : MReg) (addr len : Nat) :
    encodeS op ma addr len &&& maskS = cutFields (BitVec.ofNat 8 op &&& 0xff#8) 0#4 0#4 0#4 0#4 0#8 0#16 0#16 0#32 0#32 := by
  simp only [encodeS, assembleFields_eq_cut, maskS_eq_cut, cutFields_and, regField_and_top, BitVec.and_zero]
  rfl

/-- Format S reads back its operands when they fit. -/
theorem read_S (mk : MReg → Nat → Nat → Instr) (op : Nat) (ma : MReg) {addr len : Nat}
    (h : (fits32 addr && fits32 len) = true) : readS mk (encodeS op ma addr len) = mk ma addr len := by
  simp only [fits32, Bool.and_eq_true, decide_eq_true_eq] at h
  simp only [readS, encodeS, cmdMa_assemble, cmdAddr_assemble, cmdLen_assemble, Nat.mod_eq_of_lt h.1,
    Nat.mod_eq_of_lt h.2]

theorem enc (md : MReg) (n1 n2 addr len : Nat) : Statement (.enc md n1 n2 addr len) := fun h => by
  refine ⟨⟨"ENC", maskL, 0x20, readL .enc⟩, by simp [opcodeTable], rfl, ?_, read_L _ _ _ h⟩
  simp only [rowMatches, encode, matches_L, beq_iff_eq]; rfl

theorem dec (ma : MReg) (addr len : Nat) : Statement (.dec ma addr len) := fun h => by
  refine ⟨⟨"DEC", maskS, 0x21, readS .dec⟩, by simp [opcodeTable], rfl, ?_, read_S _ _ _ h⟩
  simp only [rowMatches, encode, matches_S, beq_iff_eq]; rfl

theorem pack (ma : MReg) (addr len : Nat) : Statement (.pack ma addr len) := fun h => by
  refine ⟨⟨"PACK", maskS, 0x22, readS .pack⟩, by simp [opcodeTable], rfl, ?_, read_S _ _ _ h⟩
  simp only [rowMatches, encode, matches_S, beq_iff_eq]; rfl

theorem unpk (md : MReg) (n1 n2 addr len : Nat) : Statement (.unpk md n1 n2 addr len) := fun h => by
  refine ⟨⟨"UNPK", maskL, 0x23, readL .unpk⟩, by simp [opcodeTable], rfl, ?_, read_L _ _ _ h⟩
  simp only [rowMatches, encode, matches_L, beq_iff_eq]; rfl

theorem ldbe (md : MReg) (n1 n2 addr len : Nat) : Statement (.ldbe md n1 n2 addr len) := fun h => by
  refine ⟨⟨"LDBE", maskL, 0x24, readL .ldbe⟩, by simp [opcodeTable], rfl, ?_, read_L _ _ _ h⟩
  simp only [rowMatches, encode, matches_L, beq_iff_eq]; rfl

theorem samp (md : MReg) (n1 n2 addr len : Nat) : Statement (.samp md n1 n2 addr len) := fun h => by
  refine ⟨⟨"SAMP", maskL, 0x30, readL .samp⟩, by simp [opcodeTable], rfl, ?_, read_L _ _ _ h⟩
  simp only [rowMatches, encode, matches_L, beq_iff_eq]; rfl

end Sys2Proof.Laws.EncodeMatchesRow
end

