-- ==== Sys2Proof/Laws/Step.lean ====
section
/-! SUPPORT. One step, transaction by transaction. -/

namespace Sys2Proof.Machine

variable {s : State} {rest : List Transaction}

theorem step_idle (h : s.port = []) : step s = .next s := by simp [step, takeNext, h]

theorem step_transact {t : Transaction} (h : s.port = t :: rest) : step s = transact t (s.accept rest) := by
  simp [step, takeNext, h]

theorem step_issue {cmd : Command} (h : s.port = .issue cmd :: rest) : step s = issue cmd (s.accept rest) :=
  step_transact h

/-- What `Issue` can do: discard, raise `IllegalCommand`, or execute the decoded command (R98). -/
theorem issue_cases (cmd : Command) (s : State) :
    (s.fault = true ∧ issue cmd s = .next s) ∨
    (s.fault = false ∧ (∃ e, decode cmd = .error e) ∧ issue cmd s = .next (s.takeFault .illegalCommand)) ∨
    ∃ i, s.fault = false ∧ decode cmd = .ok i ∧ issue cmd s = exec i s := by
  cases hf : s.fault with
  | true => exact .inl ⟨rfl, by simp [issue, hf]⟩
  | false =>
    cases hd : decode cmd with
    | error e => exact .inr (.inl ⟨rfl, ⟨e, rfl⟩, by simp [issue, hf, hd, raise]⟩)
    | ok i => exact .inr (.inr ⟨i, rfl, rfl, by simp [issue, hf, hd]⟩)

/-- What a `BufWrite` does (R52). -/
theorem hostBufWrite_cases (a : Word) (v : Byte) (s : State) :
    (s.RegionOk a.toNat 1 ∧ hostBufWrite a v s = s.writeBuf a.toNat [v]) ∨
    (¬ s.RegionOk a.toNat 1 ∧ hostBufWrite a v s = s.answer .error) := by
  by_cases h : s.RegionOk a.toNat 1
  · exact .inl ⟨h, by simp only [hostBufWrite, h, if_true]⟩
  · exact .inr ⟨h, by simp only [hostBufWrite, h, if_false]⟩

/-- All a step can do. With no transaction: nothing. Else, by the transaction: a command is discarded, is no command, or
is executed; a byte of `BUF` is written; the engine is reset; or the host gets an answer and the engine stays. -/
theorem step_cases {s t : State} (h : step s = .next t) :
    (s.port = [] ∧ t = s) ∨ ∃ tr rest, s.port = tr :: rest ∧
      ((∃ cmd, tr = .issue cmd ∧
          ((s.fault = true ∧ t = s.accept rest) ∨
            (s.fault = false ∧ (∃ e, decode cmd = .error e) ∧ t = (s.accept rest).takeFault .illegalCommand) ∨
            ∃ i, s.fault = false ∧ decode cmd = .ok i ∧ exec i (s.accept rest) = .next t)) ∨
        (∃ a v, tr = .bufWrite a v ∧ s.RegionOk a.toNat 1 ∧ t = (s.accept rest).writeBuf a.toNat [v]) ∨
        (tr.isReset = true ∧ t = (s.accept rest).afterReset) ∨
        (tr.isIssue = false ∧ tr.isReset = false ∧ ∃ r, t = (s.accept rest).answer r)) := by
  cases hp : s.port with
  | nil => rw [step_idle hp] at h; cases h; exact .inl ⟨rfl, rfl⟩
  | cons tr rest =>
    refine .inr ⟨tr, rest, rfl, ?_⟩
    rw [step_transact hp] at h
    cases tr with
    | issue cmd =>
      refine .inl ⟨cmd, rfl, ?_⟩
      rcases issue_cases cmd (s.accept rest) with ⟨hf, h'⟩ | ⟨hf, he, h'⟩ | ⟨i, hf, hd, h'⟩ <;> rw [transact, h'] at h
      · cases h; exact .inl ⟨hf, rfl⟩
      · cases h; exact .inr (.inl ⟨hf, he, rfl⟩)
      · exact .inr (.inr ⟨i, hf, hd, h⟩)
    | csrRead => cases h; exact .inr (.inr (.inr ⟨rfl, rfl, _, rfl⟩))
    | bufRead => cases h; exact .inr (.inr (.inr ⟨rfl, rfl, _, rfl⟩))
    | reset => cases h; exact .inr (.inr (.inl ⟨rfl, rfl⟩))
    | resetDuring => cases h; exact .inr (.inr (.inl ⟨rfl, rfl⟩))
    | bufWrite a v =>
      cases h
      rcases hostBufWrite_cases a v (s.accept rest) with ⟨hr, h'⟩ | ⟨_, h'⟩ <;> rw [h']
      · exact .inr (.inl ⟨a, v, rfl, hr, rfl⟩)
      · exact .inr (.inr (.inr ⟨rfl, rfl, _, rfl⟩))

end Sys2Proof.Machine
end

