-- ==== Sys2Proof/Machine/Assembler.lean ====
section
/-! DEFINITION. The notation of commands (R101, R102): one line of text to the instruction it writes. The notation is
the spec's own and no part of the machine: the host hands the engine 128-bit values (R50). What R101 leaves open of
the text (blanks, leading zeros, an operand too wide for its field) is settled in log 16. -/

namespace Sys2Proof.Machine

/-- A line as its characters. -/
abbrev Chars := List Char

def isBlank (c : Char) : Bool := c == ' ' || c == '\t'

/-- Without blanks before and after. -/
def trim (cs : Chars) : Chars := ((cs.dropWhile isBlank).reverse.dropWhile isBlank).reverse

/-- The pieces between commas; one piece where there is no comma. -/
def splitCommas : Chars → List Chars
  | [] => [[]]
  | ',' :: rest => [] :: splitCommas rest
  | c :: rest =>
    match splitCommas rest with
    | [] => [[c]]
    | piece :: pieces => (c :: piece) :: pieces

/-- The value of a digit in base 16. -/
def digitValue (c : Char) : Option Nat :=
  if '0' ≤ c ∧ c ≤ '9' then some (c.toNat - '0'.toNat)
  else if 'a' ≤ c ∧ c ≤ 'f' then some (c.toNat - 'a'.toNat + 10)
  else none

/-- The digits of a number in `base`, the most significant first, after the value read so far. -/
def readDigits (base : Nat) : Nat → Chars → Option Nat
  | acc, [] => some acc
  | acc, c :: rest =>
    match digitValue c with
    | some v => if v < base then readDigits base (acc * base + v) rest else none
    | none => none

/-- "Numbers are decimal or `0x` hexadecimal" (R101). -/
def readNumber : Chars → Option Nat
  | [] => none
  | ['0', 'x'] => none
  | '0' :: 'x' :: digits => readDigits 16 0 digits
  | digits => readDigits 10 0 digits

/-- "Registers are written `m0` to `m7`" (R101). -/
def readReg : Chars → Option MReg
  | ['m', c] =>
    match readDigits 10 0 [c] with
    | some v => if h : v < 8 then some ⟨v, h⟩ else none
    | none => none
  | _ => none

/-- A CSR by its name, `D`, `B`, `K`, `X0` to `X15`, or by its index (R101). -/
def readCsr : Chars → Option Nat
  | ['d'] => some 0x0000
  | ['b'] => some 0x0001
  | ['k'] => some 0x0002
  | ['x'] => none
  | 'x' :: digits =>
    match readDigits 10 0 digits with
    | some v => if v < 16 then some (0x0010 + v) else none
    | none => none
  | digits => readNumber digits

/-- `md`. -/
def operandsD1 (mk : MReg → Instr) : List Chars → Option Instr
  | [md] => return mk (← readReg md)
  | _ => none

/-- `md, ma, mb`. -/
def operandsA3 (mk : MReg → MReg → MReg → Instr) : List Chars → Option Instr
  | [md, ma, mb] => return mk (← readReg md) (← readReg ma) (← readReg mb)
  | _ => none

/-- `md, ma, mb, mc`. -/
def operandsA4 (mk : MReg → MReg → MReg → MReg → Instr) : List Chars → Option Instr
  | [md, ma, mb, mc] => return mk (← readReg md) (← readReg ma) (← readReg mb) (← readReg mc)
  | _ => none

/-- `md, n1, n2, addr, len`. -/
def operandsL (mk : MReg → Nat → Nat → Nat → Nat → Instr) : List Chars → Option Instr
  | [md, n1, n2, addr, len] =>
    return mk (← readReg md) (← readNumber n1) (← readNumber n2) (← readNumber addr) (← readNumber len)
  | _ => none

/-- `ma, addr, len`. -/
def operandsS (mk : MReg → Nat → Nat → Instr) : List Chars → Option Instr
  | [ma, addr, len] => return mk (← readReg ma) (← readNumber addr) (← readNumber len)
  | _ => none

/-- `csr, value`. -/
def operandsC (mk : Nat → Nat → Instr) : List Chars → Option Instr
  | [csr, value] => return mk (← readCsr csr) (← readNumber value)
  | _ => none

/-- `v`, of the pseudo-instructions `SETD`, `SETB`, `SETK` (R102). -/
def operandsV (mk : Nat → Instr) : List Chars → Option Instr
  | [v] => return mk (← readNumber v)
  | _ => none

/-- `i, v`, of the pseudo-instruction `SETX` (R102). -/
def operandsX : List Chars → Option Instr
  | [i, v] =>
    match readNumber i, readNumber v with
    | some i, some v => if h : i < 16 then some (Instr.setX ⟨i, h⟩ v) else none
    | _, _ => none
  | _ => none

/-- The instruction of a mnemonic and its operands, both in lower case (R101, R102). -/
def readCommand (mnemonic : Chars) (operands : List Chars) : Option Instr :=
  match mnemonic with
  | ['n', 'o', 'p'] => if operands = [] then some .nop else none
  | ['c', 's', 'r', 'w'] => operandsC .csrw operands
  | ['m', 'c', 'l', 'r'] => operandsD1 .mclr operands
  | ['m', 'a', 'd', 'd'] => operandsA3 .madd operands
  | ['m', 's', 'u', 'b'] => operandsA3 .msub operands
  | ['m', 'm', 'a', 'c'] => operandsA4 .mmac operands
  | ['e', 'n', 'c'] => operandsL .enc operands
  | ['d', 'e', 'c'] => operandsS .dec operands
  | ['p', 'a', 'c', 'k'] => operandsS .pack operands
  | ['u', 'n', 'p', 'k'] => operandsL .unpk operands
  | ['l', 'd', 'b', 'e'] => operandsL .ldbe operands
  | ['s', 'a', 'm', 'p'] => operandsL .samp operands
  | ['s', 'e', 't', 'd'] => operandsV Instr.setD operands
  | ['s', 'e', 't', 'b'] => operandsV Instr.setB operands
  | ['s', 'e', 't', 'k'] => operandsV Instr.setK operands
  | ['s', 'e', 't', 'x'] => operandsX operands
  | _ => none

/-- One line: `MNEMONIC operand, operand, ...`, case-insensitive, a comment after `;` (R101); `none` where the line
writes no command, an operand that does not fit its field included. -/
def assemble (line : Chars) : Option Instr :=
  let text := trim ((line.takeWhile (· != ';')).map Char.toLower)
  let operands := trim (text.dropWhile fun c => !isBlank c)
  match readCommand (text.takeWhile fun c => !isBlank c) (if operands = [] then [] else (splitCommas operands).map trim) with
  | some i => if i.wellFormed then some i else none
  | none => none

end Sys2Proof.Machine
end

