-- ==== Sys2Proof/Tests/Slice0.lean ====
section
/-! SUPPORT. Tests of one step each, with the expected results of `spec/95_test_vectors.md` (the vector is named at
each test), and for every obligation that has hypotheses a concrete state and operands that meet them. -/

namespace Sys2Proof.Tests

open Sys2Proof.Machine

/-! ## Ill-formed terms: each check of `wellFormed` refuses one -/

theorem test_illFormed_csr : (Instr.csrw 0x10000 1).wellFormed = false := by decide
theorem test_illFormed_value : (Instr.csrw 0 0x100000000).wellFormed = false := by decide
theorem test_illFormed_n1 : (Instr.enc 0 0x10000 1 0 0).wellFormed = false := by decide
theorem test_illFormed_n2 : (Instr.unpk 0 1 0x10000 0 0).wellFormed = false := by decide
theorem test_illFormed_addr : (Instr.ldbe 0 1 1 0x100000000 0).wellFormed = false := by decide
theorem test_illFormed_len : (Instr.samp 0 1 1 0 0x100000000).wellFormed = false := by decide
theorem test_illFormed_dec : (Instr.dec 0 0x100000000 0).wellFormed = false := by decide
theorem test_illFormed_pack : (Instr.pack 0 0 0x100000000).wellFormed = false := by decide
theorem test_wellFormed_ends : (Instr.enc 7 0xffff 0xffff 0xffffffff 0xffffffff).wellFormed = true ∧
    (Instr.csrw 0xffff 0xffffffff).wellFormed = true := by decide

/-! ## Decoding: the words of V-E1, written out in the spec from the fields of R91 -/

/-- The word stands for the instruction, in both directions. -/
abbrev Word4 (cmd : Command) (i : Instr) : Prop := decode cmd = .ok i ∧ encode i = cmd

theorem test_decode_nop : Word4 0x00000000000000000000000000000001#128 .nop := by decide
theorem test_decode_csrw_d : Word4 0x000000000000000f0000000000000002#128 (.csrw 0 15) := by decide
theorem test_decode_csrw_x15 : Word4 0x0000000000007fff0000001f00000002#128 (Instr.setX 15 32767) := by decide
theorem test_decode_mclr : Word4 0x00000000000000000000000000000703#128 (.mclr 7) := by decide
theorem test_decode_madd : Word4 0x00000000000000000000000000032110#128 (.madd 1 2 3) := by decide
theorem test_decode_msub : Word4 0x00000000000000000000000000070711#128 (.msub 7 0 7) := by decide
theorem test_decode_mmac : Word4 0x00000000000000000000000000210312#128 (.mmac 3 0 1 2) := by decide
theorem test_decode_mmac_ends : Word4 0x00000000000000000000000000777712#128 (.mmac 7 7 7 7) := by decide
theorem test_decode_enc : Word4 0x00000010000010000008000800000520#128 (.enc 5 8 8 0x1000 16) := by decide
theorem test_decode_dec : Word4 0x00000010000020000000000000005021#128 (.dec 5 0x2000 16) := by decide
theorem test_decode_pack : Word4 0x0000000f000000400000000000003022#128 (.pack 3 0x40 15) := by decide
theorem test_decode_unpk : Word4 0x0000000f000001000004000200000123#128 (.unpk 1 2 4 0x100 15) := by decide
theorem test_decode_ldbe : Word4 0x00372000000000000540054000000024#128 (.ldbe 0 1344 1344 0 3612672) := by decide
theorem test_decode_samp : Word4 0x00002800002000000008028000000230#128 (.samp 2 640 8 0x200000 10240) := by decide

/-- V-E2: unknown opcodes, by name. -/
theorem test_reject_opcode : decode 0#128 = .error .unknownOpcode ∧
    decode 0xffffffffffffffffffffffffffffffff#128 = .error .unknownOpcode ∧
    decode 0x13#128 = .error .unknownOpcode := by decide

/-- V-E2: set must-be-zero bits of the formats Z, C and D1. -/
theorem test_reject_control : decode 0x00000000000000000000000100000001#128 = .error .reservedBitSet ∧
    decode 0x101#128 = .error .reservedBitSet ∧ decode 0x01000003#128 = .error .reservedBitSet ∧
    decode 0x803#128 = .error .reservedBitSet ∧
    decode 0x000000000000000f0001000000000002#128 = .error .reservedBitSet ∧
    decode 0x000000010000000f0000000000000002#128 = .error .reservedBitSet ∧
    decode 0x000000000000000f0000000000000102#128 = .error .reservedBitSet := by decide

/-- V-E2: set must-be-zero bits of the formats A3, A4, L and S. -/
theorem test_reject_data : decode 0x10910#128 = .error .reservedBitSet ∧ decode 0x100210#128 = .error .reservedBitSet ∧
    decode 0x00000001000000000000000000210312#128 = .error .reservedBitSet ∧
    decode 0x00000010000010000008000800000820#128 = .error .reservedBitSet ∧
    decode 0x00000010000010000008000800010020#128 = .error .reservedBitSet ∧
    decode 0x00000010000020000000000000000121#128 = .error .reservedBitSet ∧
    decode 0x0000000f000000400000000100003022#128 = .error .reservedBitSet := by decide

/-- V-E3: odd values that are commands. -/
theorem test_decode_odd : decode 0x23#128 = .ok (.unpk 0 0 0 0 0) ∧
    decode 0x00000000ffffffff0000ffff00000002#128 = .ok (.csrw 0xffff 4294967295) := by decide

theorem test_decodeTableWord : decodeTableWord 128 0x210312 = some (.mmac 3 0 1 2) ∧ decodeTableWord 128 0 = none := by
  decide

/-- R101, R102, R104: the notation. -/
theorem test_assemble : assemble "MMAC m3, m0, m1, m2 ; product".toList = some (.mmac 3 0 1 2) ∧
    assemble "unpk M1, 2, 4, 0x100, 15".toList = some (.unpk 1 2 4 0x100 15) ∧
    assemble "SETX 2, 20579".toList = some (Instr.setX 2 20579) ∧
    assemble "MADD m9, m0, m1".toList = none := by decide

/-! ## Small states -/

/-- A matrix from its shape and entries. -/
def mat (rows cols : Nat) (entries : List Nat) : Mat := ⟨rows, cols, entries.map (BitVec.ofNat 16)⟩

/-- Right after reset, with `D`, `B`, `K` written. -/
def configured (d b k : Nat) : State :=
  ((State.reset.setD (BitVec.ofNat 5 d)).setB (BitVec.ofNat 5 b)).setK (BitVec.ofNat 5 k)

/-- The table entries `X_0`, `X_1`, `X_2`. -/
def withTable (s : State) (x0 x1 x2 : Nat) : State :=
  ((s.setX 0 (BitVec.ofNat 15 x0)).setX 1 (BitVec.ofNat 15 x1)).setX 2 (BitVec.ofNat 15 x2)

/-- `BUF` bytes written from `addr` on. -/
def withBytes (s : State) (addr : Nat) (bytes : List Nat) : State := s.writeBuf addr (bytes.map (BitVec.ofNat 8))

/-- The written bytes from `addr` on, `n` of them; `none` where nothing was written. -/
def written (s : State) (addr n : Nat) : List (Option Byte) := (List.range n).map fun j => Memory.lookup s.buf (addr + j)

/-- Bytes as `written` lists them. -/
def bytes (l : List Nat) : List (Option Byte) := l.map fun v => some (BitVec.ofNat 8 v)

/-- The state after a command or a step. -/
def after : Result → Option State
  | .next t => some t
  | .fault _ => none
  | .refused _ => none

/-- The register `r` after a command. -/
def regAfter (i : Instr) (s : State) (r : MReg) : Option Mat := (after (exec i s)).bind fun t => t.reg r

/-- The written bytes after a command. -/
def writtenAfter (i : Instr) (s : State) (addr n : Nat) : List (Option Byte) :=
  match after (exec i s) with
  | some t => written t addr n
  | none => []

/-- The fault registers and the count after a command: `FAULT`, `ERRCODE`, `ERRSEQ`, `CSEQ`. -/
def faultAfter (i : Instr) (s : State) : Option (Bool × Nat × Nat × Nat) :=
  (after (exec i s)).map fun t => (t.fault, t.errcode.toNat, t.errseq.toNat, t.cseq.toNat)

/-! ## The commands -/

theorem test_nop : after (exec .nop State.reset) = some { State.reset with cseq := 1 } := by decide

/-- V-K1: `CSRW D, 15`, then `QMASK`. -/
theorem test_csrw : (after (exec (.csrw 0 15) State.reset)).map (fun t => (t.csrRead 0, t.csrRead 3, t.csrRead 0xb)) =
    some (15, 0x7fff, 1) := by decide

/-- V-K2: rejected CSR writes. -/
theorem test_csrw_rejected : faultAfter (.csrw 0 65552) State.reset = some (true, 5, 0, 0) ∧
    faultAfter (.csrw 0x10 32768) State.reset = some (true, 5, 0, 0) ∧
    faultAfter (.csrw 3 1) State.reset = some (true, 4, 0, 0) ∧
    faultAfter (.csrw 0x20 0) State.reset = some (true, 4, 0, 0) := by decide

/-- P4: a write of `D` empties the registers, and `MCLR` its own. -/
theorem test_mclr : (after (exec (.mclr 1) ((configured 4 0 0).setReg 1 (some (mat 1 1 [7]))))).map
    (fun t => (t.reg 1, t.csrRead 0x21, t.cseq)) = some (none, 0, 1) ∧
    regAfter (.csrw 0 4) ((configured 4 0 0).setReg 1 (some (mat 1 1 [7]))) 1 = none := by decide

/-- Registers 0 to 2 set. -/
def withRegs (s : State) (A B E : Mat) : State := ((s.setReg 0 (some A)).setReg 1 (some B)).setReg 2 (some E)

/-- V-A1. -/
theorem test_madd : regAfter (.madd 0 1 2) (withRegs (configured 15 0 0) (mat 1 1 [0]) (mat 2 2 [1, 32767, 16384, 16384])
    (mat 2 2 [2, 1, 16384, 16385])) 0 = some (mat 2 2 [3, 0, 0, 1]) := by decide

/-- V-A7: the destination is both sources. -/
theorem test_madd_same : regAfter (.madd 1 1 1) (withRegs (configured 15 0 0) (mat 1 1 [0])
    (mat 2 2 [1, 16384, 32767, 20000]) (mat 1 1 [0])) 1 = some (mat 2 2 [2, 0, 32766, 7232]) := by decide

/-- V-A2, in both orders. -/
theorem test_msub : regAfter (.msub 0 1 2) (withRegs (configured 15 0 0) (mat 1 1 [0]) (mat 2 2 [0, 5, 1, 32767])
      (mat 2 2 [1, 5, 32767, 0])) 0 = some (mat 2 2 [32767, 0, 2, 32767]) ∧
    regAfter (.msub 0 2 1) (withRegs (configured 15 0 0) (mat 1 1 [0]) (mat 2 2 [0, 5, 1, 32767])
      (mat 2 2 [1, 5, 32767, 0])) 0 = some (mat 2 2 [1, 0, 32766, 1]) := by decide

/-- V-A3. -/
theorem test_mmac : regAfter (.mmac 3 0 1 2) (withRegs (configured 15 0 0) (mat 2 3 [1, 2, 3, 32767, 0, 4])
    (mat 3 2 [1, 0, 0, 1, 2, 2]) (mat 2 2 [5, 5, 5, 5])) 3 = some (mat 2 2 [12, 13, 12, 13]) := by decide

/-- V-A7: the destination is every source. -/
theorem test_mmac_same : regAfter (.mmac 0 0 0 0) (withRegs (configured 15 0 0) (mat 2 2 [1, 2, 3, 4]) (mat 1 1 [0])
    (mat 1 1 [0])) 0 = some (mat 2 2 [8, 12, 18, 26]) := by decide

/-- V-C6: groups that straddle bytes. -/
theorem test_enc : regAfter (.enc 0 1 8 0x100 3) (withBytes (configured 16 3 0) 0x100 [0x05, 0x39, 0x77]) 0 =
    some (mat 1 8 [0, 8192, 16384, 24576, 32768, 40960, 49152, 57344]) := by decide +kernel

/-- V-S2, V-S3 in small: the leading bit of the message is the high bit of the first group. -/
theorem test_enc_leading : regAfter (.enc 0 1 4 0 1) (withBytes (configured 15 2 0) 0 [0x80]) 0 =
      some (mat 1 4 [16384, 0, 0, 0]) ∧
    regAfter (.enc 0 1 4 0 1) (withBytes (configured 15 2 0) 0 [0x40]) 0 = some (mat 1 4 [8192, 0, 0, 0]) := by decide +kernel

/-- V-C5. -/
theorem test_dec : writtenAfter (.dec 1 0x200 2) (withRegs (configured 15 2 0) (mat 1 1 [0])
    (mat 2 4 [16000, 25000, 4096, 4095, 32767, 28671, 28672, 12288]) (mat 1 1 [0])) 0x200 2 = bytes [0xb4, 0x32] := by
  decide

/-- V-C4: the tie goes up; the byte at the end of the region is not written. -/
theorem test_dec_ties : writtenAfter (.dec 1 0x200 1) (withRegs (configured 15 2 0) (mat 1 1 [0])
    (mat 1 4 [4096, 7167, 12288, 28672]) (mat 1 1 [0])) 0x200 2 = [some 0x58, none] := by decide

/-- V-C7: the packed bytes. -/
theorem test_pack : writtenAfter (.pack 0 0x40 15) (withRegs (configured 15 0 0)
    (mat 2 4 [1, 2, 3, 4, 32767, 0, 16384, 4660]) (mat 1 1 [0]) (mat 1 1 [0])) 0x40 15 =
    bytes [0x00, 0x02, 0x00, 0x08, 0x00, 0x18, 0x00, 0x4f, 0xff, 0xe0, 0x00, 0x20, 0x00, 0x12, 0x34] := by decide

/-- V-C10: `D = 3`. -/
theorem test_pack_three : writtenAfter (.pack 0 0 3) (withRegs (configured 3 0 0) (mat 1 8 [0, 1, 2, 3, 4, 5, 6, 7])
    (mat 1 1 [0]) (mat 1 1 [0])) 0 3 = bytes [0x05, 0x39, 0x77] := by decide

/-- V-C7: the same bits in another shape. -/
theorem test_unpk : regAfter (.unpk 1 4 2 0x40 15) (withBytes (configured 15 0 0) 0x40
    [0x00, 0x02, 0x00, 0x08, 0x00, 0x18, 0x00, 0x4f, 0xff, 0xe0, 0x00, 0x20, 0x00, 0x12, 0x34]) 1 =
    some (mat 4 2 [1, 2, 3, 4, 32767, 0, 16384, 4660]) := by decide

/-- V-L1: three values of `D`. -/
theorem test_ldbe : regAfter (.ldbe 0 1 2 0x900 4) (withBytes (configured 15 0 0) 0x900 [0xff, 0xff, 0x80, 0x01]) 0 =
      some (mat 1 2 [32767, 1]) ∧
    regAfter (.ldbe 0 1 2 0x900 4) (withBytes (configured 16 0 0) 0x900 [0xff, 0xff, 0x80, 0x01]) 0 =
      some (mat 1 2 [65535, 32769]) ∧
    regAfter (.ldbe 0 1 3 0 6) (withBytes (configured 1 0 0) 0 [0, 1, 0, 2, 0xff, 0xff]) 0 =
      some (mat 1 3 [1, 0, 1]) := by decide

/-- V-P3, V-P4: the samples, and surplus bytes that nothing has written. -/
theorem test_samp : regAfter (.samp 0 2 2 0x800 10) (withBytes (withTable (configured 15 0 3) 1 3 6) 0x800
    [0x00, 0x04, 0x00, 0x05, 0x00, 0x0f, 0xff, 0xff]) 0 = some (mat 2 2 [1, 32767, 32765, 32765]) := by decide +kernel

/-- V-P7: tiny moduli. -/
theorem test_samp_tiny : regAfter (.samp 0 1 2 0 4) (withBytes (withTable (configured 2 0 3) 1 3 6) 0 [0, 14, 0, 15]) 0 =
      some (mat 1 2 [3, 1]) ∧
    regAfter (.samp 0 1 2 0 4) (withBytes (configured 3 0 9) 0 [0, 16, 0, 17]) 0 = some (mat 1 2 [1, 7]) := by decide +kernel

/-- V-C2 at `D = 15`, `B = 2`: the interval ends of `dc`. -/
theorem test_dc_ends : [0, 4095, 4096, 12287, 12288, 20479, 20480, 28671, 28672, 32767].map (dc 15 2) =
    [0, 0, 1, 1, 2, 2, 3, 3, 0, 0] := by decide

/-- V-P2: the largest magnitude of the table is 12. -/
theorem test_sample_table : [0x2446, 0x2448, 0x2449, 0x8001, 0xfffe, 0xffff].map (fun r => (sample 15
    [4643, 13363, 20579, 25843, 29227, 31145, 32103, 32525, 32689, 32745, 32762, 32766, 32767] r).toNat) =
    [0, 1, 32767, 32766, 12, 32756] := by decide

/-! ## Faults and the port -/

/-- P3: command 4 of the program faults with its number, and a discarded command changes nothing. -/
theorem test_fault_and_discard : faultAfter (.madd 2 0 1) { withRegs (configured 4 0 0) (mat 2 2 [1, 2, 3, 4])
      (mat 2 3 [5, 6, 7, 8, 9, 10]) (mat 1 1 [0]) with cseq := 4 } = some (true, 1, 4, 4) ∧
    after (step ({ State.reset with fault := true, errcode := 1 }.issueNext 1)) =
      some { State.reset with fault := true, errcode := 1 } := by decide

/-- R210: `BadConfig` before `EmptyRegister`, `BadDimension` before a wrong length, `BadLength` before `AddressRange`. -/
theorem test_priority : faultAfter (.madd 0 1 2) State.reset = some (true, 5, 0, 0) ∧
    faultAfter (.unpk 0 0 0 0 0) (configured 4 0 0) = some (true, 6, 0, 0) ∧
    faultAfter (.unpk 0 1 1 0xffffffff 1) (configured 4 0 0) = some (true, 3, 0, 0) ∧
    faultAfter (.ldbe 0 1 1 0x3fffff 2) (configured 4 0 0) = some (true, 8, 0, 0) := by decide

/-- The first step after reset runs the command placed by `withFetchWord`. -/
theorem test_first_step : after (step (State.reset.withFetchWord 128 (15 * 2 ^ 64 + 2))) =
    some { State.reset with d := 15, cseq := 1 } := by decide

/-- A value that is no command, as the first transaction (V-E2). -/
theorem test_first_step_illegal : after (step (State.reset.withFetchWord 128 0)) =
    some { State.reset with fault := true, errcode := 4 } := by decide

/-- R52, R53: the last byte of `BUF` is written and read; the address after it is refused. -/
theorem test_port : (after (step { State.reset with port := [.bufWrite 0x3fffff 0xab] })).map (fun t => t.buf) =
      some [(0x3fffff, 0xab)] ∧
    (after (step { State.reset with port := [.bufRead 0x3fffff], buf := [(0x3fffff, 0xab)] })).map (fun t => t.reply) =
      some (some (.byte 0xab)) ∧
    (after (step { State.reset with port := [.bufWrite 0x400000 0xab] })).map (fun t => (t.buf, t.reply)) =
      some ([], some .error) ∧
    (after (step { State.reset with port := [.csrRead 0x1234] })).map (fun t => t.reply) = some (some (.word 0)) := by
  decide

/-- R54, R219: a reset inside a command. -/
theorem test_reset : after (step { (configured 4 2 3).setReg 0 (some (mat 1 1 [7])) with
    fault := true, buf := [(5, 1)], port := [.resetDuring 1, .reset] }) =
    some { State.reset with resets := 1, port := [.reset] } := by decide

/-! ## Witnesses: for each obligation with hypotheses, a state and operands that meet them -/

/-- `D = 4`, `B = 2`, `K = 3`, a table, three registers, eight written bytes of a `BUF` of 64 bytes, seven commands
done. -/
def demo : State :=
  { withBytes (withRegs (withTable (configured 4 2 3) 1 3 6) (mat 2 2 [1, 2, 3, 4]) (mat 2 2 [5, 6, 7, 8])
      (mat 2 3 [9, 10, 11, 12, 13, 14])) 0 [0x12, 0x34, 0x56, 0x78, 0x9a, 0xbc, 0xde, 0xf0] with
    cseq := 7, params := ⟨64⟩ }

/-- `demo` with the host about to make one transaction. -/
def demoWith (t : Transaction) : State := { demo with port := [t] }

/-- `demo` after a fault. -/
def faulted : State := demo.takeFault .badLength

/-- The commands complete on `demo`. -/
abbrev Completes (i : Instr) : Prop := (after (exec i demo)).map (fun t => (t.fault, t.cseq)) = some (false, 8)

/-- The entries are below `2^d`, checked entry by entry. -/
theorem below_of_all {M : Mat} {d : Nat} (h : M.entries.all (fun e => decide (e.toNat < 2 ^ d)) = true) : M.Below d :=
  fun e he => of_decide_eq_true (List.all_eq_true.mp h e he)

/-- The part of the invariant about registers, checked register by register. -/
theorem regs_of_all {s : State} (h : ∀ i : MReg, ((s.reg i).all fun M => decide (s.DReady ∧ M.Wf) &&
    M.entries.all fun e => decide (e.toNat < 2 ^ s.logQ)) = true) :
    ∀ i M, s.reg i = some M → s.DReady ∧ M.Wf ∧ M.Below s.logQ := by
  intro i M hM
  have h := h i
  rw [hM, Option.all_some, Bool.and_eq_true] at h
  exact ⟨(of_decide_eq_true h.1).1, (of_decide_eq_true h.1).2, below_of_all h.2⟩

theorem demo_inv : demo.Inv :=
  ⟨regs_of_all (by decide), by decide, by decide, by decide, by decide, by decide, by decide,
    by decide, by decide⟩

theorem witness_ResetPutsTheEngineInTheResetState :
    (demoWith .reset).port = .reset :: [] ∧ ∃ cmd, (demoWith (.resetDuring 1)).port = .resetDuring cmd :: [] :=
  ⟨rfl, 1, rfl⟩

/-- The ends of the ranges of the indices, an `Empty` register and the largest shape. -/
theorem witness_CsrReadReturnsTheRegister :
    ([0x0000, 0x0001, 0x0002, 0x0003, 0x0004, 0x0007, 0x0008, 0x0009, 0x000a, 0x000b, 0x000c, 0x000f, 0x0010, 0x001f,
      0x0020, 0x0027, 0x0028, 0xffff].all fun n =>
        (demoWith (.csrRead (BitVec.ofNat 16 n))).port == [.csrRead (BitVec.ofNat 16 n)]) = true ∧
    (0x001f#16).toNat = 0x0010 + (15 : Fin 16).val ∧ (0x0027#16).toNat = 0x0020 + (7 : MReg).val ∧
    (demoWith (.csrRead 0x27)).reg 7 = none ∧
    ((demoWith (.csrRead 0x27)).setReg 7 (some (mat 1344 1344 []))).reg 7 = some (mat 1344 1344 []) := by decide

theorem witness_BufTransactionsTouchOneByteOrAreRefused :
    (demoWith (.bufWrite 63 1)).port = .bufWrite 63 1 :: [] ∧ (63#32).toNat < (demoWith (.bufWrite 63 1)).params.bufBytes ∧
    (demoWith (.bufWrite 64 1)).port = .bufWrite 64 1 :: [] ∧ (demoWith (.bufWrite 64 1)).params.bufBytes ≤ (64#32).toNat ∧
    (demoWith (.bufRead 63)).port = .bufRead 63 :: [] ∧ (demoWith (.bufRead 64)).port = .bufRead 64 :: [] := by decide

theorem witness_StepRunsTheDecodedCommand :
    (demoWith (.issue 0x10310)).port = .issue 0x10310 :: [] ∧ (demoWith (.issue 0x10310)).fault = false ∧
    decode 0x10310 = .ok (.madd 3 0 1) := by decide

theorem witness_FaultedEngineDiscardsCommands :
    faulted.fault = true ∧ { faulted with port := [.issue 1] }.port = .issue 1 :: [] ∧
    { faulted with port := [.csrRead 9] }.port = .csrRead 9 :: [] ∧
    { faulted with port := [.bufRead 63] }.port = .bufRead 63 :: [] ∧
    { faulted with port := [.bufWrite 63 1] }.port = .bufWrite 63 1 :: [] ∧
    (63#32).toNat < faulted.params.bufBytes := by decide

theorem witness_DecodeOfEncodeIsTheInstruction : (Instr.samp 7 0xffff 0xffff 0xffffffff 0xffffffff).WellFormed := by decide

theorem witness_EncodeOfDecodedIsTheCommand :
    decode 0xffffffffffffffffffffffff00000730#128 = .ok (.samp 7 0xffff 0xffff 0xffffffff 0xffffffff) := by decide

theorem witness_CommandBelongsToTheOneRowItMatches : ∃ r ∈ opcodeTable, (0x210312 : Command) &&& r.mask = r.pattern := by
  decide

/-- One value for each reason. -/
theorem witness_IllegalValuesRaiseIllegalCommand :
    (demoWith (.issue 0)).port = .issue 0 :: [] ∧ (demoWith (.issue 0)).fault = false ∧
    ((0x00#128).extractLsb' 0 8).toNat ∉ [0x01, 0x02, 0x03, 0x10, 0x11, 0x12, 0x20, 0x21, 0x22, 0x23, 0x24, 0x30] ∧
    (0x01000003#128).extractLsb' 24 8 ≠ 0#8 ∧ ∀ r ∈ opcodeTable, (0x803 : Command) &&& r.mask ≠ r.pattern := by decide

theorem witness_EveryStepKeepsTheInvariant : demo.Inv ∧ step demo = .next demo := ⟨demo_inv, rfl⟩

theorem witness_FaultIsStickyUntilReset : faulted.fault = true ∧ faulted.NoResetNext ∧ step faulted = .next faulted :=
  ⟨rfl, by rintro t ⟨⟩, rfl⟩

theorem witness_ReportedFaultIsTheFirstInPriority : (16 : Nat) ≤ 16 ∧ DimOk 1 ∧ DimOk 1344 := by decide

/-- `demo` with other entries, another table and other bytes. -/
def demoData : State :=
  { withTable (withRegs demo (mat 2 2 [0, 0, 0, 0]) (mat 2 2 [8, 7, 6, 5]) (mat 2 3 [0, 0, 0, 0, 0, 0])) 9 9 9 with buf := [] }

theorem witness_ControlIsIndependentOfData : SameControl demo demoData ∧ demo ≠ demoData :=
  ⟨⟨by decide, by decide, by decide, by decide, by decide, by decide, by decide, by decide, by decide⟩, by decide⟩

/-- `UNPK m3, 2, 2, 0x0, 2` reads the bytes 0 and 1; byte 2 differs and the other bytes are another draw. -/
theorem witness_CommandsReadAndWriteTheirFootprint :
    ∀ a, readsBuf (.unpk 3 2 2 0 2) a →
      demo.bufByte a = State.bufByte { demo with buf := [(0, 0x12), (1, 0x34), (2, 0)], resets := 5 } a := by
  rintro a ⟨_, h⟩
  have : a = 0 ∨ a = 1 := by omega
  rcases this with rfl | rfl <;> rfl

/-- A completing command and a register it does not write; another register file that agrees on the sources; a host
transaction. -/
theorem witness_RegistersReadAndWrittenAreTheListed :
    (after (exec (.madd 3 0 1) demo)).isSome ∧ (2 : MReg) ∉ writesReg (.madd 3 0 1) ∧
    (∀ r ∈ readsReg (.madd 3 0 1), State.reg { demo with m := demo.m.set 2 none } r = demo.reg r) ∧
    (demoWith (.csrRead 0)).port = .csrRead 0 :: [] ∧ (Transaction.csrRead 0).isReset = false ∧
    (Transaction.csrRead 0).isIssue = false := by decide

theorem witness_OnlyCsrwWritesTheParameters :
    (after (step (demoWith (.issue (encode (.csrw 0 5)))))).map (fun t => t.d) = some 5 ∧ demo.d = 4 ∧
    (Transaction.issue (encode (.csrw 0 5))).isReset = false := by decide

/-- A `BufWrite` and a `PACK` each change byte 0. -/
theorem witness_OnlyStoresAndBufWritesChangeBuf :
    (after (step (demoWith (.bufWrite 0 7)))).map (fun t => Memory.lookup t.buf 0) = some (some 7) ∧
    (after (step (demoWith (.issue (encode (.pack 1 0 2)))))).map (fun t => Memory.lookup t.buf 0) = some (some 0x56) ∧
    Memory.lookup demo.buf 0 = some 0x12 := by decide

theorem witness_SuccessfulRunCountsItsCommands :
    (∀ tr ∈ [Transaction.issue 1, .csrRead 0, .issue 1].take 2, tr.isReset = false) ∧
    (after (Sys2Proof.core.run 2 { demo with port := [.issue 1, .csrRead 0, .issue 1] })).map
      (fun t => (t.fault, t.cseq, t.port)) = some (false, 8, [.issue 1]) := by decide

/-- `D` not configured, with `B` and `K` written. -/
def unconfigured : State := configured 0 2 3

theorem unconfigured_inv : unconfigured.Inv :=
  ⟨regs_of_all (by decide), by decide, by decide, by decide, by decide, by decide, by decide, by decide,
    by decide⟩

/-- Each cause, at the ends of the ranges. -/
theorem witness_UnusableConfigurationIsBadConfig :
    (usesD (.madd 0 1 2) = true ∧ ¬ (1 ≤ unconfigured.d.toNat ∧ unconfigured.d.toNat ≤ 16)) ∧
    (usesB (.dec 0 0 0) = true ∧ (configured 4 0 0).b.toNat = 0 ∧ (configured 4 5 0).d.toNat < (configured 4 5 0).b.toNat) ∧
    (usesK (.samp 0 1 1 0 0) = true ∧ (configured 4 0 0).k.toNat = 0) ∧
    ((0 : Nat) < 1 ∧ (16 : Nat) < 17 ∧ (32767 : Nat) < 32768) ∧ unconfigured.d = 0#5 := by decide

theorem witness_UnusableConfigurationIsBadConfig_invariant : unconfigured.Inv ∧ unconfigured.d = 0#5 :=
  ⟨unconfigured_inv, by decide⟩

/-- Each kind of source. -/
theorem witness_EmptySourceIsEmptyRegister : demo.reg 7 = none ∧
    (Configured (.madd 0 1 7) demo ∧ (7 : MReg) ∈ readsReg (.madd 0 1 7)) ∧
    (Configured (.mmac 0 1 1 7) demo ∧ (7 : MReg) ∈ readsReg (.mmac 0 1 1 7)) ∧
    (Configured (.dec 7 0 1) demo ∧ (7 : MReg) ∈ readsReg (.dec 7 0 1)) ∧
    (Configured (.pack 7 0 1) demo ∧ (7 : MReg) ∈ readsReg (.pack 7 0 1)) := by decide

/-- Each format-L command, and each end of the range. -/
theorem witness_IllegalDimensionIsBadDimension :
    (newShape (.enc 0 0 1 0 0) = some (0, 1) ∧ Configured (.enc 0 0 1 0 0) demo) ∧
    (newShape (.unpk 0 1 0 0 0) = some (1, 0) ∧ Configured (.unpk 0 1 0 0 0) demo) ∧
    (newShape (.ldbe 0 1345 1 0 0) = some (1345, 1) ∧ Configured (.ldbe 0 1345 1 0 0) demo) ∧
    (newShape (.samp 0 1 1345 0 0) = some (1, 1345) ∧ Configured (.samp 0 1 1345 0 0) demo) := by decide

/-- `m0` is 2 × 2 and `m2` is 2 × 3: the column counts differ, and `m2 · m2` does not fit. -/
theorem witness_IncompatibleShapesAreDimensionMismatch : 1 ≤ demo.d.toNat ∧ demo.d.toNat ≤ 16 ∧
    demo.reg 0 = some (mat 2 2 [1, 2, 3, 4]) ∧ demo.reg 2 = some (mat 2 3 [9, 10, 11, 12, 13, 14]) ∧
    (mat 2 2 [1, 2, 3, 4]).cols ≠ (mat 2 3 [9, 10, 11, 12, 13, 14]).cols ∧
    (mat 2 3 [9, 10, 11, 12, 13, 14]).cols ≠ (mat 2 3 [9, 10, 11, 12, 13, 14]).rows := by decide

/-- One byte too few, the exact length, and a surplus byte. -/
theorem witness_ShortSamplerBufferIsInsufficientRandomness : demo.DReady ∧ demo.KReady ∧ DimOk 2 ∧ 7 < 2 * 2 * 2 ∧
    2 * 2 * 2 ≤ 8 ∧ 2 * 2 * 2 ≤ 9 ∧ demo.RegionOk 56 8 ∧ demo.RegionOk 55 9 := by decide

theorem witness_WrongPackedLengthIsMalformedCiphertext : demo.DReady ∧ DimOk 2 ∧ 8 * 1 ≠ demo.d.toNat * 2 * 2 ∧
    8 * 3 ≠ demo.d.toNat * 2 * 2 ∧ 8 * 2 = demo.d.toNat * 2 * 2 ∧ demo.RegionOk 62 2 := by decide

/-- One byte more than each command needs. -/
theorem witness_InexactLengthIsBadLength : demo.DReady ∧ DimOk 2 ∧ demo.reg 0 = some (mat 2 2 [1, 2, 3, 4]) ∧ demo.BReady ∧
    8 * 2 ≠ demo.b.toNat * 2 * 2 ∧ 8 * 3 ≠ demo.d.toNat * 2 * 2 ∧ 9 ≠ 2 * 2 * 2 := by decide

/-- `PACK m0, 0x3f, 2` ends one byte outside `BUF`, and no earlier check of it fails. -/
theorem witness_RegionOutsideBufIsAddressRange : region (.pack 0 63 2) = some (63, 2) ∧ demo.params.bufBytes < 63 + 2 ∧
    (∀ f, priority f < priority .addressRange → ¬ Cause (.pack 0 63 2) demo f) ∧ demo.Inv := by
  refine ⟨rfl, by decide, fun f _ => ?_, demo_inv⟩
  have hd : Configured (.pack 0 63 2) demo := by decide
  have hr : demo.reg 0 = some (mat 2 2 [1, 2, 3, 4]) := by decide
  have hl : 8 * 2 = demo.d.toNat * (mat 2 2 [1, 2, 3, 4]).rows * (mat 2 2 [1, 2, 3, 4]).cols := by decide
  cases f
  case addressRange => contradiction
  case badConfig =>
    rintro (h | ⟨_, _, h, _⟩)
    · exact h hd
    · exact Instr.noConfusion h
  all_goals simp [Cause, readsReg, newShape, ShapesClash, WrongLength, hr, hl]

theorem witness_NopOnlyCounts : (0x101#128).extractLsb' 0 8 = 0x01#8 ∧ 0x101#128 ≠ 1#128 := by decide

/-- The ends of every range of indices and of values. -/
theorem witness_CsrwFollowsItsRule :
    (1 : Nat) ≤ 1 ∧ (16 : Nat) ≤ 16 ∧ 0x001f = 0x0010 + (15 : Fin 16).val ∧ (32767 : Nat) ≤ 32767 ∧
    (∀ csr ∈ [0x0003, 0x000f, 0x0020, 0xffff], ¬ (csr ≤ 2 ∨ 0x0010 ≤ csr ∧ csr ≤ 0x001f)) ∧
    (0x001f < 2 ^ 16 ∧ 4294967295 < 2 ^ 32) := by decide

theorem witness_MclrEmptiesItsRegister : demo.reg 7 = none ∧ demo.reg 0 ≠ none ∧ demo.DReady := by decide

theorem witness_LdbeLoadsMaskedChunks : demo.DReady ∧ DimOk 1 ∧ DimOk 2 ∧ 4 = 2 * 1 * 2 ∧ demo.RegionOk 60 4 ∧
    Completes (.ldbe 3 1 2 60 4) := by decide

theorem witness_MaddAddsModQ : demo.DReady ∧ demo.reg 0 = some (mat 2 2 [1, 2, 3, 4]) ∧
    demo.reg 1 = some (mat 2 2 [5, 6, 7, 8]) ∧ Completes (.madd 0 0 1) := by decide

theorem witness_MsubSubtractsModQ : demo.DReady ∧ demo.reg 0 = some (mat 2 2 [1, 2, 3, 4]) ∧
    demo.reg 1 = some (mat 2 2 [5, 6, 7, 8]) ∧ Completes (.msub 0 0 1) := by decide

theorem witness_MmacMultipliesAndAddsModQ : demo.DReady ∧ demo.reg 0 = some (mat 2 2 [1, 2, 3, 4]) ∧
    demo.reg 2 = some (mat 2 3 [9, 10, 11, 12, 13, 14]) ∧ Completes (.mmac 0 0 2 2) := by decide

theorem witness_ArithmeticObeysTheRingLaws : (mat 1 2 [1, 15]).Wf ∧ (mat 1 2 [0, 9]).Wf ∧ (mat 1 2 [1, 15]).Below 4 ∧
    (mat 1 2 [0, 9]).Below 4 ∧ (mat 1 2 [1, 15]).SameShape (mat 1 2 [0, 9]) ∧
    (mat 1 3 [1, 2, 3]).rows = (mat 1 2 [1, 15]).rows ∧ (mat 3 2 [1, 2, 3, 4, 5, 6]).cols = (mat 1 2 [1, 15]).cols :=
  ⟨by decide, by decide, below_of_all (by decide), below_of_all (by decide), by decide, by decide, by decide⟩

/-- The widest entries, the longest sum, an accumulator of 32 bits. -/
theorem witness_AccumulatorWidthCannotBeObserved : 1 ≤ 16 ∧ 16 ≤ 32 ∧ 0 < (mat 1 1344 []).rows ∧ 0 < (mat 1344 1 []).cols ∧
    (mat 1 1344 []).cols ≤ 1344 := by decide

theorem witness_EcPlacesTheHighBits : (1 ≤ 1 ∧ 1 ≤ 16 ∧ 16 ≤ 16 ∧ 1 < 2 ^ 1) ∧ (1 ≤ 16 ∧ 16 ≤ 16 ∧ 65535 < 2 ^ 16) := by decide

theorem witness_DcRoundsHalfUp : (1 ≤ 2 ∧ 2 < 15 ∧ 15 ≤ 16 ∧ 4096 < 2 ^ 15) ∧ (1 ≤ 16 ∧ 16 ≤ 16 ∧ 65535 < 2 ^ 16) := by decide

/-- `D = 15`, `B = 2`: each interval end of R143. -/
theorem witness_DcToleratesHalfAStep : (1 ≤ 2 ∧ 2 < 15 ∧ 15 ≤ 16) ∧
    (1 ≤ 1 ∧ 1 < 2 ^ 2 ∧ 1 * 2 ^ 13 - 2 ^ 12 ≤ 4096 ∧ 12287 < 1 * 2 ^ 13 + 2 ^ 12) ∧ 4095 < 2 ^ 12 ∧
    (2 ^ 15 - 2 ^ 12 ≤ 28672 ∧ 32767 < 2 ^ 15) ∧
    (3 < 2 ^ 2 ∧ -(2 ^ 14 : Int) ≤ -4096 ∧ (4096 : Int) < 2 ^ 14) := by decide

theorem witness_DcOfEcIsTheInteger : 1 ≤ 2 ∧ 2 ≤ 15 ∧ 15 ≤ 16 ∧ 3 < 2 ^ 2 := by decide

theorem witness_EncEncodesTheMessage : demo.DReady ∧ demo.BReady ∧ DimOk 2 ∧ 8 * 1 = demo.b.toNat * 2 * 2 ∧
    demo.RegionOk 63 1 ∧ Completes (.enc 3 2 2 63 1) := by decide

theorem witness_DecWritesTheMessage : demo.DReady ∧ demo.BReady ∧ demo.reg 0 = some (mat 2 2 [1, 2, 3, 4]) ∧
    8 * 1 = demo.b.toNat * 2 * 2 ∧ demo.RegionOk 63 1 ∧ Completes (.dec 0 63 1) := by decide

theorem witness_PackWritesEveryBit : demo.DReady ∧ demo.reg 0 = some (mat 2 2 [1, 2, 3, 4]) ∧
    8 * 2 = demo.d.toNat * 2 * 2 ∧ demo.RegionOk 62 2 ∧ Completes (.pack 0 62 2) := by decide

theorem witness_UnpkReadsTheFields : demo.DReady ∧ DimOk 2 ∧ 8 * 2 = demo.d.toNat * 2 * 2 ∧ demo.RegionOk 62 2 ∧
    Completes (.unpk 3 2 2 62 2) := by decide

theorem witness_UnpkOfPackRestoresTheRegister : demo.Inv ∧ demo.reg 0 = some (mat 2 2 [1, 2, 3, 4]) ∧
    8 * 2 = demo.d.toNat * (mat 2 2 [1, 2, 3, 4]).rows * (mat 2 2 [1, 2, 3, 4]).cols ∧ demo.RegionOk 62 2 :=
  ⟨demo_inv, by decide, by decide, by decide⟩

/-- The two regions overlap. -/
theorem witness_PackOfUnpkRestoresTheBytes : demo.DReady ∧ DimOk 2 ∧ 8 * 2 = demo.d.toNat * 2 * 2 ∧ demo.RegionOk 0 2 ∧
    demo.RegionOk 1 2 := by decide

theorem witness_DecOfEncRestoresTheMessage : demo.DReady ∧ demo.BReady ∧ DimOk 2 ∧ 8 * 1 = demo.b.toNat * 2 * 2 ∧
    demo.RegionOk 0 1 ∧ demo.RegionOk 63 1 := by decide

/-- Messages of eight bits: all zero, the leading bit, bit `B - 1`. -/
theorem witness_LeadingMessageBitIsTheHighBit : demo.DReady ∧ demo.BReady ∧ DimOk 2 ∧ 8 * 1 = demo.b.toNat * 2 * 2 ∧
    demo.RegionOk 8 1 ∧ (∀ p, p < 8 * 1 → (withBytes demo 8 [0x00]).bufBit 8 p = false) ∧
    (∀ p, p < 8 * 1 → (withBytes demo 8 [0x80]).bufBit 8 p = decide (p = 0)) ∧
    (∀ p, p < 8 * 1 → (withBytes demo 8 [0x40]).bufBit 8 p = decide (p = (withBytes demo 8 [0x40]).b.toNat - 1)) := by
  decide

/-- `D = 1`: `e = 3` is not below `q`; and a table in another order. -/
theorem witness_SampleFollowsTheTable : (1 ≤ 1 ∧ 1 ≤ 16) ∧
    3 = (([1, 3, 6] : List (BitVec 15)).filter fun x => decide (x.toNat < 15 / 2)).length ∧ 3 < 2 ^ 15 ∧
    ([1, 3, 6] : List (BitVec 15)).Perm [6, 1, 3] := by decide

theorem witness_SampleHasItsProperties : (1 ≤ 15 ∧ 15 ≤ 16) ∧ ([1, 3, 32767] : List (BitVec 15)).length < 2 ^ 15 ∧
    magnitude [1, 3, 32767] (2 / 2) = 0 ∧ 65535 < 65536 ∧ magnitude [1, 3, 32767] (65535 / 2) ≠ 0 ∧ 32767 ≤ 32767 ∧
    ([1, 3, 32767] : List (BitVec 15)).getLast? = some 32767#15 ∧
    ([1, 3, 32767] : List (BitVec 15)).Pairwise (fun x y => x.toNat ≤ y.toNat) ∧
    2 = magnitude [1, 3, 32767] 4 ∧ 1 < magnitude [1, 3, 32767] 4 ∧ 2 < ([1, 3, 32767] : List (BitVec 15)).length := by
  decide

/-- A surplus byte. -/
theorem witness_SampSamplesTheChunks : demo.DReady ∧ demo.KReady ∧ DimOk 1 ∧ DimOk 2 ∧ 2 * 1 * 2 ≤ 5 ∧ demo.RegionOk 59 5 ∧
    Completes (.samp 3 1 2 59 5) := by decide

/-- Each command of the frame completes on `demo`. -/
theorem witness_RegisterCommandsLeaveTheRest : Completes (.mclr 3) ∧ Completes (.madd 3 0 1) ∧ Completes (.msub 3 0 1) ∧
    Completes (.mmac 3 0 1 1) ∧ Completes (.enc 3 2 2 0 1) ∧ Completes (.unpk 3 2 2 0 2) ∧ Completes (.ldbe 3 1 2 0 4) ∧
    Completes (.samp 3 1 2 0 4) := by decide

theorem witness_StoreCommandsLeaveTheRest : Completes (.dec 0 8 1) ∧ Completes (.pack 0 8 2) := by decide

theorem witness_ControlCommandsLeaveTheRest : Completes .nop ∧ Completes (.csrw 0 5) ∧ Completes (.csrw 1 5) ∧
    Completes (.csrw 2 5) ∧ Completes (.csrw 0x1f 5) ∧ (after (exec (.csrw 3 5) demo)).isSome := by decide

end Sys2Proof.Tests
end

section
/-! Proofs about the state: the invariant (R26, R30 to R39) and reset. -/

namespace Sys2Proof.Machine

variable {s t u : State} {i : Instr}

/-- A command that answers a next state took a fault, or had its effect and counted (R98). -/
theorem exec_next_cases (h : exec i s = .next t) :
    (∃ f, t = s.takeFault f) ∨ ∃ u, Effect s i u ∧ t = u.count := by
  rcases exec_cases s i with ⟨f, -, hf⟩ | ⟨u, hu, hc⟩
  · exact .inl ⟨f, Host.Outcome.next.inj (h.symm.trans hf)⟩
  · exact .inr ⟨u, hu, Host.Outcome.next.inj (h.symm.trans hc)⟩

/-! ## The matrices a command builds belong in a register (R26) -/

/-- What the invariant asks of a matrix that a register of `s` holds (R26). -/
abbrev State.Fits (s : State) (M : Mat) : Prop := s.DReady ∧ M.Wf ∧ M.Below s.logQ

/-- A matrix of legal shape with every computed entry below `q` fits. -/
theorem State.fits_ofFn {n1 n2 : Nat} {f : Nat → Nat → Entry} (hd : s.DReady) (hn : DimOk n1 ∧ DimOk n2)
    (hf : ∀ r c, (f r c).toNat < 2 ^ s.logQ) : s.Fits (Mat.ofFn n1 n2 f) := by
  refine ⟨hd, ⟨hn.1, hn.2, Mat.ofFn_length ..⟩, fun e he => ?_⟩
  obtain ⟨r, c, -, -, rfl⟩ := Mat.mem_ofFn he
  exact hf r c

theorem State.Fits.dims {M : Mat} (h : s.Fits M) : DimOk M.rows ∧ DimOk M.cols := ⟨h.2.1.1, h.2.1.2.1⟩

theorem sample_lt {d : Nat} (hd : d ≤ 16) (thresholds : List (BitVec 15)) (r : Nat) :
    (sample d thresholds r).toNat < 2 ^ d := by
  rw [sample]
  split
  · exact reduce_lt hd _
  · exact reduce_lt hd _

theorem State.Fits.matAdd {A B : Mat} (hA : s.Fits A) : s.Fits (matAdd s.logQ A B) :=
  State.fits_ofFn hA.1 hA.dims fun _ _ => reduce_lt hA.1.2 _

theorem State.Fits.matSub {A B : Mat} (hA : s.Fits A) : s.Fits (matSub s.logQ A B) :=
  State.fits_ofFn hA.1 hA.dims fun _ _ => reduce_lt hA.1.2 _

theorem State.Fits.matMulAdd {A B E : Mat} (hA : s.Fits A) (hB : s.Fits B) : s.Fits (matMulAdd s.logQ A B E) :=
  State.fits_ofFn hA.1 ⟨hA.dims.1, hB.dims.2⟩ fun _ _ => reduce_lt hA.1.2 _

section
variable {n1 n2 : Nat} (addr : Nat) (hd : s.DReady) (hn : DimOk n1 ∧ DimOk n2)
include hd hn

theorem State.fits_encMat : s.Fits (encMat s n1 n2 addr) := State.fits_ofFn hd hn fun _ _ => reduce_lt hd.2 _

/-- A field of `D` bits is below `q`, so that no bit is lost in the entry (R151). -/
theorem State.fits_unpkMat : s.Fits (unpkMat s n1 n2 addr) :=
  State.fits_ofFn hd hn fun _ _ => by
    rw [BitVec.toNat_ofNat]
    exact Nat.lt_of_le_of_lt (Nat.mod_le ..) (bitsValue_lt ..)

theorem State.fits_ldbeMat : s.Fits (ldbeMat s n1 n2 addr) := State.fits_ofFn hd hn fun _ _ => reduce_lt hd.2 _

theorem State.fits_sampMat : s.Fits (sampMat s n1 n2 addr) := State.fits_ofFn hd hn fun _ _ => sample_lt hd.2 ..

end

/-! ## Each update of the state keeps the invariant -/

namespace State.Inv

theorem setReg (h : s.Inv) (md : MReg) {v : Option Mat} (hv : ∀ M, v = some M → s.Fits M) : (s.setReg md v).Inv :=
  { h with
    regs := fun j M hM => by
      rw [State.reg_setReg] at hM
      split at hM
      · exact hv M hM
      · exact h.regs j M hM }

theorem setReg_some (h : s.Inv) (md : MReg) {M : Mat} (hM : s.Fits M) : (s.setReg md (some M)).Inv :=
  h.setReg md fun _ hN => Option.some.inj hN ▸ hM

/-- A write of `D` empties every register, so that none holds entries of another `q` (R31). -/
theorem clearRegs_setD (h : s.Inv) {v : BitVec 5} (hv : v.toNat ≤ 16) : (s.clearRegs.setD v).Inv :=
  { h with
    regs := fun j M hM => by simp at hM
    dRange := hv }

theorem setB (h : s.Inv) {v : BitVec 5} (hv : v.toNat ≤ 16) : (s.setB v).Inv := { h with bRange := hv }

theorem setK (h : s.Inv) {v : BitVec 5} (hv : v.toNat ≤ 16) : (s.setK v).Inv := { h with kRange := hv }

theorem setX (h : s.Inv) (j : Fin 16) (v : BitVec 15) : (s.setX j v).Inv := { h with }

/-- Bytes written inside `BUF` keep the list canonical and inside `BUF` (R44). -/
theorem writeBuf (h : s.Inv) {addr : Nat} {bytes : List Byte} (hr : s.RegionOk addr bytes.length) :
    (s.writeBuf addr bytes).Inv :=
  { h with
    bufForm := Memory.wf_writeBytes h.bufForm addr bytes
    bufInside := fun c hc => by
      rcases Memory.mem_writeBytes hc with ⟨-, hlt⟩ | hold
      · exact Nat.lt_of_lt_of_le hlt hr
      · exact h.bufInside c hold }

/-- The count advances only while `FAULT = 0`: with `FAULT = 1` it would leave `ERRSEQ` behind (R38, R39). -/
theorem count (h : s.Inv) (hf : s.fault = false) : s.count.Inv :=
  { h with faulted := fun hf' => absurd (hf.symm.trans hf') Bool.false_ne_true }

theorem takeFault (h : s.Inv) (f : EngineFault) : (s.takeFault f).Inv :=
  { h with
    unfaulted := fun hf => absurd hf.symm Bool.false_ne_true
    faulted := fun _ => by
      have hcode : 1 ≤ f.code.toNat ∧ f.code.toNat ≤ 9 := by cases f <;> decide
      exact ⟨hcode.1, hcode.2, rfl⟩ }

theorem answer (h : s.Inv) (r : Reply) : (s.answer r).Inv := { h with }

theorem accept (h : s.Inv) (rest : List Transaction) : (s.accept rest).Inv := { h with }

/-- A reset makes a state that meets the invariant out of any state with a legal `BUF_BYTES` (R47, R230). -/
theorem afterReset (hp : s.params.Wf) : s.afterReset.Inv where
  regs j M hM := by simp at hM
  dRange := Nat.zero_le _
  bRange := Nat.zero_le _
  kRange := Nat.zero_le _
  unfaulted _ := ⟨rfl, rfl⟩
  faulted hf := absurd hf Bool.false_ne_true
  bufForm := List.Pairwise.nil
  bufInside c hc := absurd hc List.not_mem_nil
  params := hp

end State.Inv

/-! ## Commands and steps keep it -/

/-- A legal parameter value is stored in 5 bits as it is (R30). -/
theorem toNat_ofNat_le_of_paramValueOk {value : Nat} (h : ParamValueOk value) : (BitVec.ofNat 5 value).toNat ≤ 16 := by
  rw [BitVec.toNat_ofNat]
  exact Nat.le_trans (Nat.mod_le ..) h.2

theorem Effect.inv (h : Effect s i u) (hs : s.Inv) : u.Inv := by
  cases h with
  | nop => exact hs
  | csrwD hv => exact hs.clearRegs_setD (toNat_ofNat_le_of_paramValueOk hv)
  | csrwB hv => exact hs.setB (toNat_ofNat_le_of_paramValueOk hv)
  | csrwK hv => exact hs.setK (toNat_ofNat_le_of_paramValueOk hv)
  | csrwX _ _ => exact hs.setX ..
  | mclr => exact hs.setReg _ nofun
  | madd _ hA _ _ => exact hs.setReg_some _ (State.Fits.matAdd (hs.regs _ _ hA))
  | msub _ hA _ _ => exact hs.setReg_some _ (State.Fits.matSub (hs.regs _ _ hA))
  | mmac _ hA hB _ _ => exact hs.setReg_some _ (State.Fits.matMulAdd (hs.regs _ _ hA) (hs.regs _ _ hB))
  | enc hd hn _ _ => exact hs.setReg_some _ (State.fits_encMat _ hd.1 hn)
  | dec _ _ _ hr => exact hs.writeBuf (by rwa [length_decBytes])
  | pack _ _ _ hr => exact hs.writeBuf (by rwa [length_packBytes])
  | unpk hd hn _ _ => exact hs.setReg_some _ (State.fits_unpkMat _ hd hn)
  | ldbe hd hn _ _ => exact hs.setReg_some _ (State.fits_ldbeMat _ hd hn)
  | samp hd hn _ _ => exact hs.setReg_some _ (State.fits_sampMat _ hd.1 hn)

/-- A command taken up with `FAULT = 0` keeps the invariant, whether it completes or faults (R98). -/
theorem exec_keeps_inv (hs : s.Inv) (hf : s.fault = false) (h : exec i s = .next t) : t.Inv := by
  rcases exec_next_cases h with ⟨f, rfl⟩ | ⟨u, hu, rfl⟩
  · exact hs.takeFault f
  · exact (hu.inv hs).count (hu.kept.1.trans hf)

theorem step_keeps_inv (hs : s.Inv) (h : step s = .next t) : t.Inv := by
  rcases step_cases h with ⟨-, rfl⟩ | ⟨tr, rest, -, hissue | ⟨a, v, -, hr, rfl⟩ | ⟨-, rfl⟩ | ⟨-, -, r, rfl⟩⟩
  · exact hs
  · obtain ⟨cmd, -, ⟨-, rfl⟩ | ⟨-, -, rfl⟩ | ⟨i, hf, -, hex⟩⟩ := hissue
    · exact hs.accept rest
    · exact (hs.accept rest).takeFault _
    · exact exec_keeps_inv (hs.accept rest) hf hex
  · exact (hs.accept rest).writeBuf hr
  · exact State.Inv.afterReset hs.params
  · exact (hs.accept rest).answer r

/-- Settles O14: every update a step makes keeps the invariant, and a command that counts does so with `FAULT = 0`. -/
theorem everyStepKeepsTheInvariant : Obligations.EveryStepKeepsTheInvariant :=
  fun _ _ => step_keeps_inv

end Sys2Proof.Machine
end

section
/-! Proofs about what a command reads, writes and leaves unchanged (R27, R30, R67). -/

namespace Sys2Proof.Machine

variable {s t u : State} {i : Instr}

/-! ## What the effect of a command writes -/

/-- A `CSRW` to a table entry writes no register. -/
theorem writesReg_csrw_x {csr : Nat} {j : Fin 16} (h : csrAt csr = some (.x j)) (value : Nat) :
    writesReg (.csrw csr value) = [] := by
  obtain rfl := csrAt_eq_x.mp h
  exact if_neg (by omega)

/-- A command whose list of written registers is one register writes that register and nothing else (R27, R67). -/
theorem Effect.eq_setReg {md : MReg} (h : Effect s i u) (hw : writesReg i = [md]) : ∃ v, u = s.setReg md v := by
  cases h with
  | nop | csrwB | csrwK | dec | pack => simp [writesReg] at hw
  | csrwD => simp [writesReg, List.finRange_succ] at hw
  | csrwX hj _ => simp [writesReg_csrw_x hj] at hw
  | mclr | madd | msub | mmac | enc | unpk | ldbe | samp => cases hw; exact ⟨_, rfl⟩

/-- `DEC` and `PACK` write `len` bytes of `BUF` from `addr` on and nothing else (R27, R67). -/
theorem Effect.eq_writeBuf {ma : MReg} {addr len : Nat} (h : Effect s i u)
    (hi : i = .dec ma addr len ∨ i = .pack ma addr len) :
    ∃ bytes : List Byte, bytes.length = len ∧ u = s.writeBuf addr bytes := by
  rcases hi with rfl | rfl
  · cases h; exact ⟨_, length_decBytes .., rfl⟩
  · cases h; exact ⟨_, length_packBytes .., rfl⟩

/-- Only `CSRW` writes `D`, `B`, `K` or the table (R30, R34). -/
theorem Effect.params_or_csrw (h : Effect s i u) :
    (∃ csr value, i = .csrw csr value) ∨ (u.d = s.d ∧ u.b = s.b ∧ u.k = s.k ∧ u.x = s.x) := by
  cases h with
  | csrwD | csrwB | csrwK | csrwX => exact .inl ⟨_, _, rfl⟩
  | nop | mclr | madd | msub | mmac | enc | dec | pack | unpk | ldbe | samp => exact .inr ⟨rfl, rfl, rfl, rfl⟩

theorem Effect.reg_of_notMem {r : MReg} (h : Effect s i u) (hr : r ∉ writesReg i) : u.reg r = s.reg r := by
  cases h with
  | csrwD => exact absurd (List.mem_finRange r) hr
  | nop | csrwB | csrwK | csrwX | dec | pack => rfl
  | mclr | madd | msub | mmac | enc | unpk | ldbe | samp => exact State.reg_setReg_ne _ _ (List.ne_of_not_mem_cons hr)

/-! ## Frames of whole commands -/

theorem exec_params_or_csrw (h : exec i s = .next t) :
    (∃ csr value, i = .csrw csr value) ∨ (t.d = s.d ∧ t.b = s.b ∧ t.k = s.k ∧ t.x = s.x) := by
  rcases exec_next_cases h with ⟨f, rfl⟩ | ⟨u, hu, rfl⟩
  · exact .inr ⟨rfl, rfl, rfl, rfl⟩
  · exact hu.params_or_csrw

/-- Settles O22: of all a step can do, only the effect of a `CSRW` and a reset write the parameters. -/
theorem onlyCsrwWritesTheParameters : Obligations.OnlyCsrwWritesTheParameters := by
  intro s t hno hstep hchange
  have changed {t' : State} (ht : t = t') : ¬ (t'.d = s.d ∧ t'.b = s.b ∧ t'.k = s.k ∧ t'.x = s.x) := by
    subst ht; tauto
  rcases step_cases hstep with ⟨-, ht⟩ | ⟨tr, rest, hp, hissue | ⟨a, v, -, -, ht⟩ | ⟨hreset, -⟩ | ⟨-, -, r, ht⟩⟩
  · exact absurd ⟨rfl, rfl, rfl, rfl⟩ (changed ht)
  · obtain ⟨cmd, rfl, ⟨-, ht⟩ | ⟨-, -, ht⟩ | ⟨i, hf, hd, hex⟩⟩ := hissue
    · exact absurd ⟨rfl, rfl, rfl, rfl⟩ (changed ht)
    · exact absurd ⟨rfl, rfl, rfl, rfl⟩ (changed ht)
    · obtain ⟨csr, value, rfl⟩ := (exec_params_or_csrw hex).resolve_right (changed rfl)
      exact ⟨cmd, rest, csr, value, hp, hd, hf⟩
  · exact absurd ⟨rfl, rfl, rfl, rfl⟩ (changed ht)
  · have hnot := hno tr (by rw [hp]; rfl)
    exact absurd (hreset.symm.trans hnot) Bool.noConfusion
  · exact absurd ⟨rfl, rfl, rfl, rfl⟩ (changed ht)

/-- Settles O58: such a command takes a fault, or writes `md` alone and counts. -/
theorem registerCommandsLeaveTheRest : Obligations.RegisterCommandsLeaveTheRest := by
  intro i s t md hi h
  have hw : writesReg i = [md] := by
    rcases hi with rfl | ⟨_, _, rfl⟩ | ⟨_, _, rfl⟩ | ⟨_, _, _, rfl⟩ | ⟨_, _, _, _, rfl⟩ | ⟨_, _, _, _, rfl⟩ |
      ⟨_, _, _, _, rfl⟩ | ⟨_, _, _, _, rfl⟩ <;> rfl
  rcases exec_next_cases h with ⟨f, rfl⟩ | ⟨u, hu, rfl⟩
  · exact ⟨fun _ _ => rfl, rfl, rfl, rfl, rfl, fun _ => rfl, rfl, rfl, .inr ⟨rfl, rfl, rfl, rfl⟩⟩
  · obtain ⟨v, rfl⟩ := hu.eq_setReg hw
    exact ⟨fun r hr => State.reg_setReg_ne s v hr, rfl, rfl, rfl, rfl, fun _ => rfl, rfl, rfl, .inl ⟨rfl, rfl, rfl, rfl⟩⟩

/-- Settles O59: a store takes a fault, or writes the bytes of its region alone and counts. -/
theorem storeCommandsLeaveTheRest : Obligations.StoreCommandsLeaveTheRest := by
  intro i s t ma addr len hi h
  rcases exec_next_cases h with ⟨f, rfl⟩ | ⟨u, hu, rfl⟩
  · exact ⟨fun _ => rfl, rfl, rfl, rfl, rfl, rfl, rfl, fun _ _ => rfl, .inr ⟨fun _ => rfl, rfl, rfl, rfl⟩⟩
  · obtain ⟨bytes, hlen, rfl⟩ := hu.eq_writeBuf hi
    refine ⟨fun _ => rfl, rfl, rfl, rfl, rfl, rfl, rfl, fun a ha => ?_, .inl ⟨rfl, rfl, rfl, rfl⟩⟩
    exact State.bufByte_writeBuf_outside s addr bytes a (hlen.symm ▸ ha)

/-! ## A command's result depends on the registers it reads only (R27) -/

/-- `exec i` answers from `s` and from another register file alike: the same fault, or the same state but for the register
file, with the registers of `w` the same too. -/
def SameBut (w : List MReg) (s : State) (o o' : Result) : Prop :=
  ∃ s' t', o = .next s' ∧ o' = .next t' ∧ t' = { s' with m := t'.m } ∧
    ((∃ f, s' = s.takeFault f) ∨ ∀ r ∈ w, s'.reg r = t'.reg r)

section
variable (s) (m : Vector (Option Mat) 8) (w : List MReg)

theorem sameBut_raise (f : EngineFault) : SameBut w s (raise f s) (raise f { s with m := m }) :=
  ⟨_, _, rfl, rfl, rfl, .inl ⟨f, rfl⟩⟩

theorem sameBut_complete (h : ∀ r ∈ w, u.reg r = State.reg { u with m := m } r) :
    SameBut w s (complete u) (complete { u with m := m }) :=
  ⟨_, _, rfl, rfl, rfl, .inr h⟩

theorem sameBut_complete_nil : SameBut [] s (complete u) (complete { u with m := m }) :=
  sameBut_complete s m [] nofun

theorem sameBut_complete_setReg (md : MReg) (v : Option Mat) :
    SameBut [md] s (complete (s.setReg md v)) (complete (State.setReg { s with m := m } md v)) :=
  sameBut_complete s (m.set md v) [md] fun r hr => by
    rw [List.mem_singleton.mp hr, State.reg_setReg_same]
    exact (State.reg_setReg_same { s with m := m } md v).symm

variable {m}

theorem sameBut_entrywise (op : Nat → Mat → Mat → Mat) (md : MReg) {ma mb : MReg}
    (ha : State.reg { s with m := m } ma = s.reg ma) (hb : State.reg { s with m := m } mb = s.reg mb) :
    SameBut [md] s (entrywise op md ma mb s) (entrywise op md ma mb { s with m := m }) := by
  simp only [entrywise, ha, hb]
  split
  · exact sameBut_raise ..
  · split
    · split
      · exact sameBut_raise ..
      · exact sameBut_complete_setReg ..
    · exact sameBut_raise ..

theorem sameBut_execMmac (md : MReg) {ma mb mc : MReg} (ha : State.reg { s with m := m } ma = s.reg ma)
    (hb : State.reg { s with m := m } mb = s.reg mb) (hc : State.reg { s with m := m } mc = s.reg mc) :
    SameBut [md] s (execMmac md ma mb mc s) (execMmac md ma mb mc { s with m := m }) := by
  simp only [execMmac, ha, hb, hc]
  split
  · exact sameBut_raise ..
  · split
    · split
      · exact sameBut_raise ..
      · exact sameBut_complete_setReg ..
    · exact sameBut_raise ..

theorem sameBut_loadMat (ready lengthOk : Bool) (lengthFault : EngineFault) (entry : Nat → Entry) (md : MReg)
    (n1 n2 addr len : Nat) :
    SameBut [md] s (loadMat ready lengthOk lengthFault entry md n1 n2 addr len s)
      (loadMat ready lengthOk lengthFault entry md n1 n2 addr len { s with m := m }) := by
  simp only [loadMat]
  split
  · exact sameBut_raise ..
  · split
    · exact sameBut_raise ..
    · split
      · exact sameBut_raise ..
      · split
        · exact sameBut_raise ..
        · exact sameBut_complete_setReg ..

theorem sameBut_storeMat (ready : Bool) (width : Nat) (value : Entry → Nat) {ma : MReg} (addr len : Nat)
    (ha : State.reg { s with m := m } ma = s.reg ma) :
    SameBut [] s (storeMat ready width value ma addr len s) (storeMat ready width value ma addr len { s with m := m }) := by
  simp only [storeMat, ha]
  split
  · exact sameBut_raise ..
  · split
    · exact sameBut_raise ..
    · split
      · exact sameBut_raise ..
      · split
        · exact sameBut_raise ..
        · exact sameBut_complete_nil ..

theorem sameBut_execCsrw (csr value : Nat) :
    SameBut (writesReg (.csrw csr value)) s (execCsrw csr value s) (execCsrw csr value { s with m := m }) := by
  cases hc : csrAt csr with
  | none => simp only [execCsrw, hc]; exact sameBut_raise ..
  | some c =>
    cases c with
    | d =>
      simp only [execCsrw, hc]
      split
      · exact sameBut_complete s (Vector.replicate 8 none) _ fun _ _ => rfl
      · exact sameBut_raise ..
    | b =>
      obtain rfl := csrAt_eq_b.mp hc
      simp only [execCsrw, hc]
      split
      · exact sameBut_complete_nil ..
      · exact sameBut_raise ..
    | k =>
      obtain rfl := csrAt_eq_k.mp hc
      simp only [execCsrw, hc]
      split
      · exact sameBut_complete_nil ..
      · exact sameBut_raise ..
    | x j =>
      have hw : writesReg (.csrw csr value) = [] := writesReg_csrw_x hc value
      simp only [execCsrw, hc, hw]
      split
      · exact sameBut_complete_nil ..
      · exact sameBut_raise ..
    | qmask | status | errcode | errseq | cseq | mshape => simp only [execCsrw, hc]; exact sameBut_raise ..

/-- The result of a command depends on no register but the ones it reads. -/
theorem sameBut_exec (h : ∀ r ∈ readsReg i, State.reg { s with m := m } r = s.reg r) :
    SameBut (writesReg i) s (exec i s) (exec i { s with m := m }) := by
  cases i with
  | nop => exact sameBut_complete_nil ..
  | csrw csr value => exact sameBut_execCsrw ..
  | mclr md => exact sameBut_complete_setReg ..
  | madd md ma mb | msub md ma mb => exact sameBut_entrywise s _ md (h ma (by simp [readsReg])) (h mb (by simp [readsReg]))
  | mmac md ma mb mc =>
    exact sameBut_execMmac s md (h ma (by simp [readsReg])) (h mb (by simp [readsReg])) (h mc (by simp [readsReg]))
  | enc => unfold exec execEnc; exact sameBut_loadMat ..
  | unpk => unfold exec execUnpk; exact sameBut_loadMat ..
  | ldbe => unfold exec execLdbe; exact sameBut_loadMat ..
  | samp => unfold exec execSamp; exact sameBut_loadMat ..
  | dec ma addr len => unfold exec execDec; exact sameBut_storeMat s _ _ _ addr len (h ma (by simp [readsReg]))
  | pack ma addr len => unfold exec execPack; exact sameBut_storeMat s _ _ _ addr len (h ma (by simp [readsReg]))

end

/-- No transaction but a reset and an issued command writes a matrix register (R24). -/
theorem step_m_of_not_issue {tr : Transaction} {rest : List Transaction} (hp : s.port = tr :: rest)
    (hreset : tr.isReset = false) (hissue : tr.isIssue = false) (h : step s = .next t) : t.m = s.m := by
  rcases step_cases h with ⟨-, rfl⟩ | ⟨tr', rest', hp', hcmd | ⟨a, v, -, -, rfl⟩ | ⟨hreset', -⟩ | ⟨-, -, r, rfl⟩⟩
  · rfl
  · obtain ⟨cmd, rfl, -⟩ := hcmd
    obtain ⟨rfl, -⟩ := List.cons.inj (hp.symm.trans hp')
    exact absurd hissue Bool.noConfusion
  · rfl
  · obtain ⟨rfl, -⟩ := List.cons.inj (hp.symm.trans hp')
    exact absurd (hreset.symm.trans hreset') Bool.noConfusion
  · rfl

/-- Settles O21: the writes of each effect, the result's dependence on the registers read, and the other transactions. -/
theorem registersReadAndWrittenAreTheListed : Obligations.RegistersReadAndWrittenAreTheListed := by
  refine ⟨fun i s t r h hr => ?_, fun i s m h => sameBut_exec s h, fun s t tr rest => step_m_of_not_issue⟩
  rcases exec_next_cases h with ⟨f, rfl⟩ | ⟨u, hu, rfl⟩
  · rfl
  · exact hu.reg_of_notMem hr

end Sys2Proof.Machine
end

section
/-! Proofs about reset and the host port (R47, R51 to R54). -/

namespace Sys2Proof.Machine

variable {s : State} {rest : List Transaction}

/-! ## The value of each CSR as the host reads it (R30, R35, R36, R40, R41) -/

theorem csrAt_mshape (i : MReg) : csrAt (0x0020 + i.val) = some (.mshape i) := by revert i; decide

/-- The reserved indices (R41). -/
theorem csrAt_reserved {n : Nat} (h : 0x0004 ≤ n ∧ n ≤ 0x0007 ∨ 0x000C ≤ n ∧ n ≤ 0x000F ∨ 0x0028 ≤ n) :
    csrAt n = none := by
  unfold csrAt
  simp (disch := omega) only [if_neg]

/-- A `CsrRead` of an implemented index returns that CSR (R51). -/
theorem State.csrRead_of_csrAt (s : State) {n : Nat} {c : Csr} (h : csrAt n = some c) : s.csrRead n = s.csrValue c := by
  simp only [State.csrRead, h]

theorem State.csrRead_reserved (s : State) {n : Nat} (h : csrAt n = none) : s.csrRead n = 0 := by
  simp only [State.csrRead, h]

theorem State.toNat_qmask (s : State) : s.qmask.toNat = 2 ^ s.d.toNat - 1 := by
  have hle : 2 ^ s.d.toNat ≤ 2 ^ 31 := Nat.pow_le_pow_right (by decide) (Nat.le_of_lt_succ s.d.isLt)
  rw [State.qmask, BitVec.toNat_ofNat]
  exact Nat.mod_eq_of_lt (by omega)

/-- `STATUS` is bit 1, `FAULT`, alone, `BUSY` being 0 (R36). -/
theorem State.toNat_status (s : State) : s.status.toNat = if s.fault then 2 else 0 := by
  simp only [State.status, State.busy]
  cases s.fault <;> rfl

theorem State.mshape_of_empty {i : MReg} (h : s.reg i = none) : s.mshape i = 0 := by simp only [State.mshape, h]

/-- `MSHAPE_i` shows `VALID`, `rows` and `cols` side by side when both fit their 11 bits (R40). -/
theorem State.toNat_mshape {i : MReg} {M : Mat} (h : s.reg i = some M) (hr : M.rows ≤ 1344) (hc : M.cols ≤ 1344) :
    (s.mshape i).toNat = 2 ^ 31 + M.rows * 2 ^ 16 + M.cols := by
  simp only [State.mshape, h, toNat_append_eq, BitVec.toNat_ofNat]
  omega

/-- Settles O1, field by field; the views of a state with `D = 0`, no fault and `Empty` registers read 0. -/
theorem resetLeavesTheSpecValues : Obligations.ResetLeavesTheSpecValues := by
  have hempty (i : MReg) : State.reset.reg i = none := by simp [State.reset, State.reg]
  refine ⟨hempty, rfl, rfl, rfl, fun i => ?_, rfl, rfl, rfl, rfl, rfl, rfl, rfl, fun i => ?_⟩
  · simp [State.reset]
  · rw [State.csrRead_of_csrAt _ (csrAt_mshape i)]
    exact State.mshape_of_empty (hempty i)

/-- Settles O13: the reset state is what a reset makes, with the default `BUF_BYTES` of R6. -/
theorem invariantHoldsAtReset : Obligations.InvariantHoldsAtReset :=
  { State.Inv.afterReset (s := State.reset) (by decide) with }

/-- Both kinds of reset leave the state of R47 (R54, R219, R230). -/
theorem step_reset (h : s.port = .reset :: rest ∨ ∃ cmd, s.port = .resetDuring cmd :: rest) :
    step s = .next (s.accept rest).afterReset := by
  rcases h with h | ⟨cmd, h⟩
  · exact step_transact h
  · exact step_transact h

/-- Settles O2: both kinds of reset step to `State.afterReset`. -/
theorem resetPutsTheEngineInTheResetState : Obligations.ResetPutsTheEngineInTheResetState := by
  intro s rest h
  refine ⟨_, step_reset h, State.reg_afterReset _, rfl, rfl, rfl, fun i => ?_, rfl, rfl, rfl, rfl,
    State.bufByte_afterReset _, rfl, rfl⟩
  simp

/-- Settles O3, the indices taken one by one. -/
theorem csrReadReturnsTheRegister : Obligations.CsrReadReturnsTheRegister := by
  intro s index rest hp
  have read {n : Nat} {c : Csr} (hc : csrAt n = some c) (hn : index.toNat = n) :
      s.csrRead index.toNat = s.csrValue c := s.csrRead_of_csrAt (hn.symm ▸ hc)
  refine ⟨s.csrRead index.toNat, step_transact hp, fun h => ?_, fun h => ?_, fun h => ?_, fun h => ?_, fun h => ?_,
    fun h => ?_, read (c := .errseq) rfl, read (c := .cseq) rfl, fun i h => ?_, fun i h => ?_, fun h => ?_⟩
  · rw [read rfl h]; exact BitVec.toNat_setWidth_of_le (by decide)
  · rw [read rfl h]; exact BitVec.toNat_setWidth_of_le (by decide)
  · rw [read rfl h]; exact BitVec.toNat_setWidth_of_le (by decide)
  · rw [read rfl h]; exact s.toNat_qmask
  · rw [read rfl h]; exact s.toNat_status
  · rw [read rfl h]; exact BitVec.toNat_setWidth_of_le (by decide)
  · rw [read (csrAt_x i) h]; exact BitVec.toNat_setWidth_of_le (by decide)
  · rw [read (csrAt_mshape i) h]
    exact ⟨fun he => congrArg BitVec.toNat (State.mshape_of_empty he), fun M => State.toNat_mshape⟩
  · rw [s.csrRead_reserved (csrAt_reserved h)]; rfl

/-- Settles O4: one byte is inside `BUF` exactly when its address is below `BUF_BYTES`. -/
theorem bufTransactionsTouchOneByteOrAreRefused : Obligations.BufTransactionsTouchOneByteOrAreRefused := by
  intro s a v rest
  have inside : (s.accept rest).RegionOk a.toNat 1 ↔ a.toNat < s.params.bufBytes := Nat.succ_le_iff
  constructor
  · intro hp
    have hstep : step s = .next (hostBufWrite a v (s.accept rest)) := step_transact hp
    refine ⟨fun ha => ⟨(s.accept rest).writeBuf a.toNat [v], ?_, rfl, ?_, fun a' ha' => ?_⟩, fun ha => ?_⟩
    · rw [hstep, hostBufWrite, if_pos (inside.mpr ha)]
    · exact State.bufByte_writeBuf_inside _ a.toNat [v] 0 Nat.one_pos
    · exact State.bufByte_writeBuf_outside _ _ _ _ (by simp only [List.length_singleton]; omega)
    · rw [hstep, hostBufWrite, if_neg (inside.not.mpr (Nat.not_lt.mpr ha))]; rfl
  · intro hp
    have hstep : step s = .next (hostBufRead a (s.accept rest)) := step_transact hp
    refine ⟨fun ha => ?_, fun ha => ?_⟩
    · rw [hstep, hostBufRead, if_pos (inside.mpr ha)]; rfl
    · rw [hstep, hostBufRead, if_neg (inside.not.mpr (Nat.not_lt.mpr ha))]; rfl

end Sys2Proof.Machine
end

section
/-! Proofs about `BUF`: its bytes as fields of its bit string (R60, R61), and the footprint of a command (R67). -/

namespace Sys2Proof.Machine

/-! ## Fields of the bit string -/

/-- The first `w` of `w + w'` bits are the more significant ones (R10). -/
theorem bitsValue_add (bit : Nat → Bool) (p w w' : Nat) :
    bitsValue bit p (w + w') = bitsValue bit p w * 2 ^ w' + bitsValue bit (p + w) w' := by
  induction w' with
  | zero => simp [bitsValue]
  | succ w' ih => rw [← Nat.add_assoc, bitsValue, ih, bitsValue, Nat.pow_succ, ← Nat.add_assoc p]; ring

/-- The eight string bits of a byte are the byte (R10, R60). -/
theorem State.bitField_byte (s : State) (addr j : Nat) : s.bitField addr (8 * j) 8 = (s.bufByte (addr + j)).toNat := by
  refine bitsValue_of_testBit (s.bufByte (addr + j)).isLt fun t ht => ?_
  have hdiv : (8 * j + t) / 8 = j := by omega
  have hmod : (8 * j + t) % 8 = t := by omega
  rw [State.bufBit, hdiv, hmod, BitVec.testBit_toNat]

/-- A chunk is the two bytes at its place, one after the other (R61). -/
theorem State.chunk_eq_bitField (s : State) (addr g : Nat) : s.chunk addr g = s.bitField addr (16 * g) 16 := by
  calc s.chunk addr g
      = s.bitField addr (8 * (2 * g)) 8 * 2 ^ 8 + s.bitField addr (8 * (2 * g + 1)) 8 := by
        rw [State.bitField_byte, State.bitField_byte]; rfl
    _ = s.bitField addr (8 * (2 * g)) (8 + 8) := (bitsValue_add ..).symm
    _ = s.bitField addr (16 * g) 16 := by rw [← Nat.mul_assoc]

/-- Settles O57: the first clause is the second with `chunk` written out. -/
theorem chunkIsASixteenBitField : Obligations.ChunkIsASixteenBitField :=
  fun s addr g => ⟨s.chunk_eq_bitField addr g, s.chunk_eq_bitField addr g⟩

/-! ## What a field or a chunk depends on -/

/-- A field that ends inside `len` bytes depends on these bytes only (R10). -/
theorem State.bitField_congr {s t : State} {addr len p w : Nat}
    (h : ∀ a, addr ≤ a ∧ a < addr + len → s.bufByte a = t.bufByte a) (hp : p + w ≤ 8 * len) :
    s.bitField addr p w = t.bitField addr p w :=
  bitsValue_congr fun k hk => by rw [State.bufBit, State.bufBit, h _ ⟨by omega, by omega⟩]

/-- A chunk inside `len` bytes depends on these bytes only (R61). -/
theorem State.chunk_congr {s t : State} {addr len g : Nat}
    (h : ∀ a, addr ≤ a ∧ a < addr + len → s.bufByte a = t.bufByte a) (hg : 2 * g + 1 < len) :
    s.chunk addr g = t.chunk addr g := by
  rw [State.chunk, State.chunk, h _ ⟨by omega, by omega⟩, h _ ⟨by omega, by omega⟩]

/-- Field `g` of a dense sequence of `n1 · n2` values of `w` bits ends inside the sequence (R62). -/
theorem field_end_le {g w n1 n2 len : Nat} (hg : g < n1 * n2) (hl : 8 * len = w * n1 * n2) : g * w + w ≤ 8 * len := by
  calc g * w + w = w * (g + 1) := by ring
    _ ≤ w * (n1 * n2) := Nat.mul_le_mul_left w hg
    _ = 8 * len := by rw [hl, Nat.mul_assoc]

/-- Chunk `g` of `n1 · n2` chunks ends inside them (R61). -/
theorem chunk_end_lt {g n1 n2 : Nat} (hg : g < n1 * n2) : 2 * g + 1 < 2 * n1 * n2 := by
  rw [Nat.mul_assoc]; omega

/-! ## A command that writes no byte carries any contents of `BUF` along -/

/-- The same outcome, with `mem` and draw `n` as the contents of `BUF`. -/
def withBuf (mem : Memory) (n : Nat) : Result → Result
  | .next u => .next { u with buf := mem, resets := n }
  | .fault r => .fault r
  | .refused r => .refused r

section
variable (s : State) (mem : Memory) (n : Nat)

theorem entrywise_withBuf (op : Nat → Mat → Mat → Mat) (md ma mb : MReg) :
    entrywise op md ma mb { s with buf := mem, resets := n } = withBuf mem n (entrywise op md ma mb s) := by
  simp only [entrywise, State.reg]
  split
  · rfl
  · split
    · split <;> rfl
    · rfl

theorem execMmac_withBuf (md ma mb mc : MReg) :
    execMmac md ma mb mc { s with buf := mem, resets := n } = withBuf mem n (execMmac md ma mb mc s) := by
  simp only [execMmac, State.reg]
  split
  · rfl
  · split
    · split <;> rfl
    · rfl

theorem execCsrw_withBuf (csr value : Nat) :
    execCsrw csr value { s with buf := mem, resets := n } = withBuf mem n (execCsrw csr value s) := by
  cases hc : csrAt csr with
  | none => simp only [execCsrw, hc]; rfl
  | some c =>
    cases c with
    | d | b | k | x => simp only [execCsrw, hc]; split <;> rfl
    | qmask | status | errcode | errseq | cseq | mshape => simp only [execCsrw, hc]; rfl

/-- The same holds of a load whose entries come out of the other contents as they did before. -/
theorem loadMat_withBuf {ready lengthOk : Bool} (lengthFault : EngineFault) {entry entry' : Nat → Entry} (md : MReg)
    {n1 n2 : Nat} (addr len : Nat) (h : lengthOk = true → ∀ g, g < n1 * n2 → entry g = entry' g) :
    loadMat ready lengthOk lengthFault entry' md n1 n2 addr len { s with buf := mem, resets := n } =
      withBuf mem n (loadMat ready lengthOk lengthFault entry md n1 n2 addr len s) := by
  simp only [loadMat]
  split
  · rfl
  · split
    · rfl
    · split
      · rfl
      next hl =>
        have hM : Mat.ofFn n1 n2 (fun r c => entry (r * n2 + c)) = Mat.ofFn n1 n2 fun r c => entry' (r * n2 + c) :=
          Mat.ofFn_congr fun r c hr hc => h (Bool.not_eq_false _ ▸ hl) _ (linearIndex_lt hr hc)
        rw [hM]
        split <;> rfl

variable {s mem n}

/-- A command that is no store carries along any contents of `BUF` that agree on the bytes it reads (R67). -/
theorem exec_withBuf {i : Instr} (hstore : ∀ ma addr len, i ≠ .dec ma addr len ∧ i ≠ .pack ma addr len)
    (h : ∀ a, readsBuf i a → s.bufByte a = State.bufByte { s with buf := mem, resets := n } a) :
    exec i { s with buf := mem, resets := n } = withBuf mem n (exec i s) := by
  cases i with
  | nop | mclr => rfl
  | csrw => exact execCsrw_withBuf ..
  | madd | msub => exact entrywise_withBuf ..
  | mmac => exact execMmac_withBuf ..
  | enc md n1 n2 addr len =>
    unfold exec execEnc
    exact loadMat_withBuf s mem n _ md addr len fun hl _ hg =>
      congrArg _ (State.bitField_congr h (field_end_le hg (eq_of_beq hl)))
  | unpk md n1 n2 addr len =>
    unfold exec execUnpk
    exact loadMat_withBuf s mem n _ md addr len fun hl _ hg =>
      congrArg _ (State.bitField_congr h (field_end_le hg (eq_of_beq hl)))
  | ldbe md n1 n2 addr len =>
    unfold exec execLdbe
    exact loadMat_withBuf s mem n _ md addr len fun _ _ hg =>
      congrArg (fun v : Nat => reduce s.logQ v) (State.chunk_congr h (chunk_end_lt hg))
  | samp md n1 n2 addr len =>
    unfold exec execSamp
    exact loadMat_withBuf s mem n _ md addr len fun _ _ hg =>
      congrArg (sample s.logQ s.thresholds) (State.chunk_congr h (chunk_end_lt hg))
  | dec ma addr len => exact absurd rfl (hstore ma addr len).1
  | pack ma addr len => exact absurd rfl (hstore ma addr len).2

end

/-! ## What a command does to `BUF` -/

/-- An effect changes no byte outside the written footprint (R67, R69). -/
theorem Effect.bufByte_of_not_writesBuf {s u : State} {i : Instr} {a : Nat} (h : Effect s i u) (ha : ¬ writesBuf i a) :
    u.bufByte a = s.bufByte a := by
  cases h with
  | nop | csrwD | csrwB | csrwK | csrwX | mclr | madd | msub | mmac | enc | unpk | ldbe | samp => rfl
  | dec => exact State.bufByte_writeBuf_outside _ _ _ _ (by rw [length_decBytes]; simp only [writesBuf] at ha; omega)
  | pack => exact State.bufByte_writeBuf_outside _ _ _ _ (by rw [length_packBytes]; simp only [writesBuf] at ha; omega)

/-- A byte written to `BUF` does not depend on what `BUF` held (R69). -/
theorem State.bufByte_writeBuf_inside_eq (s t : State) {addr a : Nat} {bytes : List Byte}
    (h : addr ≤ a ∧ a < addr + bytes.length) :
    (s.writeBuf addr bytes).bufByte a = (t.writeBuf addr bytes).bufByte a := by
  obtain ⟨j, rfl⟩ := Nat.exists_eq_add_of_le h.1
  have hj : j < bytes.length := by omega
  rw [State.bufByte_writeBuf_inside _ _ _ _ hj, State.bufByte_writeBuf_inside _ _ _ _ hj]

/-- How a command with the written footprint `w` ends from `s` and from `t`, two states that differ in the contents of
`BUF` alone, with the outcomes `o` and `o'`: with one fault, or in states that again differ so, with equal bytes in `w`
and every other byte as it was (R67). -/
def EndsAlike (w : Nat → Prop) (s t : State) (o o' : Result) : Prop :=
  (∃ f, o = .next (s.takeFault f) ∧ o' = .next (t.takeFault f)) ∨
  ∃ s' t', o = .next s' ∧ o' = .next t' ∧ s'.cseq = s.cseq + 1 ∧ t' = { s' with buf := t'.buf, resets := t'.resets } ∧
    (∀ a, w a → s'.bufByte a = t'.bufByte a) ∧
    ∀ a, ¬ w a → s'.bufByte a = s.bufByte a ∧ t'.bufByte a = t.bufByte a

section
variable (s : State) (mem : Memory) (n : Nat)

/-- A store ends alike whatever `BUF` holds: it takes the same fault, or writes the same bytes (R67, R69). -/
theorem storeMat_endsAlike (ready : Bool) (width : Nat) (value : Entry → Nat) (ma : MReg) (addr len : Nat) :
    EndsAlike (fun a => addr ≤ a ∧ a < addr + len) s { s with buf := mem, resets := n }
      (storeMat ready width value ma addr len s)
      (storeMat ready width value ma addr len { s with buf := mem, resets := n }) := by
  cases hr : ready with
  | false => exact .inl ⟨_, storeMat_badConfig _ _ _ _ _ _ _ rfl, storeMat_badConfig _ _ _ _ _ _ _ rfl⟩
  | true =>
    cases hm : s.reg ma with
    | none => exact .inl ⟨_, storeMat_emptyRegister _ _ _ _ _ _ _ rfl hm, storeMat_emptyRegister _ _ _ _ _ _ _ rfl hm⟩
    | some M =>
      by_cases hl : 8 * len = width * M.rows * M.cols
      · by_cases ha : s.RegionOk addr len
        · refine .inr ⟨_, _, storeMat_completes _ _ _ _ _ _ _ rfl hm hl ha,
            storeMat_completes _ _ _ _ _ _ _ rfl hm hl ha, rfl, rfl, fun a hin => ?_, fun a hout => ⟨?_, ?_⟩⟩
          · exact State.bufByte_writeBuf_inside_eq s { s with buf := mem, resets := n } (by rwa [length_bytesOfBits])
          · exact State.bufByte_writeBuf_outside _ _ _ _ (by rw [length_bytesOfBits]; omega)
          · exact State.bufByte_writeBuf_outside _ _ _ _ (by rw [length_bytesOfBits]; omega)
        · exact .inl ⟨_, storeMat_addressRange _ _ _ _ _ _ _ rfl hm hl ha,
            storeMat_addressRange _ _ _ _ _ _ _ rfl hm hl ha⟩
      · exact .inl ⟨_, storeMat_badLength _ _ _ _ _ _ _ rfl hm hl, storeMat_badLength _ _ _ _ _ _ _ rfl hm hl⟩

variable {s mem n}

/-- A command that carries the contents of `BUF` along and writes no byte ends alike. -/
theorem endsAlike_of_exec_withBuf {i : Instr} (hw : ∀ a, ¬ writesBuf i a)
    (h : exec i { s with buf := mem, resets := n } = withBuf mem n (exec i s)) :
    EndsAlike (writesBuf i) s { s with buf := mem, resets := n } (exec i s) (exec i { s with buf := mem, resets := n }) := by
  rw [h]
  rcases exec_cases s i with ⟨f, -, hf⟩ | ⟨u, hu, hc⟩
  · rw [hf]
    exact .inl ⟨f, rfl, rfl⟩
  · rw [hc]
    obtain ⟨-, -, -, hcseq, -⟩ := hu.kept
    exact .inr ⟨_, _, rfl, rfl, congrArg (· + 1) hcseq, rfl, fun a ha => absurd ha (hw a),
      fun a ha => ⟨hu.bufByte_of_not_writesBuf ha, rfl⟩⟩

/-- Every command ends alike from two contents of `BUF` that agree on the bytes it reads (R67). -/
theorem exec_endsAlike {i : Instr}
    (h : ∀ a, readsBuf i a → s.bufByte a = State.bufByte { s with buf := mem, resets := n } a) :
    EndsAlike (writesBuf i) s { s with buf := mem, resets := n } (exec i s) (exec i { s with buf := mem, resets := n }) := by
  cases i with
  | dec ma addr len => unfold exec execDec; exact storeMat_endsAlike ..
  | pack ma addr len => unfold exec execPack; exact storeMat_endsAlike ..
  | nop | csrw | mclr | madd | msub | mmac | enc | unpk | ldbe | samp =>
    exact endsAlike_of_exec_withBuf (fun _ ha => ha) (exec_withBuf (fun _ _ _ => ⟨nofun, nofun⟩) h)

end

/-- Settles O20: a store ends alike from any contents of `BUF`, and every other command carries them along. -/
theorem commandsReadAndWriteTheirFootprint : Obligations.CommandsReadAndWriteTheirFootprint :=
  fun _ _ _ _ => exec_endsAlike

end Sys2Proof.Machine
end

section
/-! Proofs about the encoding of commands: the opcode table, the decoder and the encoder (R91 to R96, R98, R99). -/

namespace Sys2Proof

open Machine

variable {cmd cmd' : Command} {r r' : Row} {i : Instr}

/-! ## A command belongs to one row (R96) -/

theorem rowMatches_iff : rowMatches cmd r = true ↔ cmd &&& r.mask = r.pattern := beq_iff_eq

/-- Every mask covers the opcode byte and the bits 31 to 24 (R92, R96). -/
theorem mask_fixed_bytes : ∀ r ∈ opcodeTable, r.mask.extractLsb' 0 8 = 0xff#8 ∧ r.mask.extractLsb' 24 8 = 0xff#8 := by
  decide

/-- A command that matches a row agrees with its pattern on every byte its mask covers. -/
theorem extractLsb'_of_match {lo : Nat} (hmatch : cmd &&& r.mask = r.pattern) (hmask : r.mask.extractLsb' lo 8 = 0xff#8) :
    cmd.extractLsb' lo 8 = r.pattern.extractLsb' lo 8 := by
  calc cmd.extractLsb' lo 8
      = cmd.extractLsb' lo 8 &&& 0xff#8 := BitVec.and_allOnes.symm
    _ = (cmd &&& r.mask).extractLsb' lo 8 := by rw [BitVec.extractLsb'_and, hmask]
    _ = r.pattern.extractLsb' lo 8 := by rw [hmatch]

theorem opcode_of_match (hr : r ∈ opcodeTable) (hmatch : cmd &&& r.mask = r.pattern) :
    cmd.extractLsb' 0 8 = r.pattern.extractLsb' 0 8 :=
  extractLsb'_of_match hmatch (mask_fixed_bytes r hr).1

/-- Rows differ in their opcodes, so a command matches at most one (R95, R96). -/
theorem row_unique (hr : r ∈ opcodeTable) (hr' : r' ∈ opcodeTable) (hmatch : cmd &&& r.mask = r.pattern)
    (hmatch' : cmd &&& r'.mask = r'.pattern) : r = r' := by
  have opcodes_nodup : (opcodeTable.map fun r => r.pattern.extractLsb' 0 8).Nodup := by decide
  exact List.inj_on_of_nodup_map opcodes_nodup hr hr'
    ((opcode_of_match hr hmatch).symm.trans (opcode_of_match hr' hmatch'))

/-- A value decodes to what the row it matches reads from it (R96). -/
theorem decode_eq_ok_iff : decode cmd = .ok i ↔ ∃ r ∈ opcodeTable, cmd &&& r.mask = r.pattern ∧ r.read cmd = i := by
  unfold decode
  cases hfind : opcodeTable.find? (rowMatches cmd) with
  | none =>
    refine ⟨nofun, fun ⟨r, hr, hmatch, _⟩ => ?_⟩
    exact absurd (rowMatches_iff.mpr hmatch) (List.find?_eq_none.mp hfind r hr)
  | some r =>
    have hr := List.mem_of_find?_eq_some hfind
    have hmatch := rowMatches_iff.mp (List.find?_some hfind)
    constructor
    · rintro ⟨⟩
      exact ⟨r, hr, hmatch, rfl⟩
    · rintro ⟨r', hr', hmatch', rfl⟩
      rw [row_unique hr hr' hmatch hmatch']

/-- Settles O10: the row of a command is unique, and `decode` finds it. -/
theorem commandBelongsToTheOneRowItMatches : Obligations.CommandBelongsToTheOneRowItMatches :=
  ⟨fun _ _ _ hr hr' hmatch hmatch' => congrArg Row.mnemonic (row_unique hr hr' hmatch hmatch'),
    fun _ _ => decode_eq_ok_iff⟩

/-! ## Decoding an encoded instruction -/

theorem encode_matches_row (i : Instr) : Laws.EncodeMatchesRow.Statement i := by
  cases i with
  | nop => exact Laws.EncodeMatchesRow.nop
  | csrw csr value => exact Laws.EncodeMatchesRow.csrw csr value
  | mclr md => exact Laws.EncodeMatchesRow.mclr md
  | madd md ma mb => exact Laws.EncodeMatchesRow.madd md ma mb
  | msub md ma mb => exact Laws.EncodeMatchesRow.msub md ma mb
  | mmac md ma mb mc => exact Laws.EncodeMatchesRow.mmac md ma mb mc
  | enc md n1 n2 addr len => exact Laws.EncodeMatchesRow.enc md n1 n2 addr len
  | dec ma addr len => exact Laws.EncodeMatchesRow.dec ma addr len
  | pack ma addr len => exact Laws.EncodeMatchesRow.pack ma addr len
  | unpk md n1 n2 addr len => exact Laws.EncodeMatchesRow.unpk md n1 n2 addr len
  | ldbe md n1 n2 addr len => exact Laws.EncodeMatchesRow.ldbe md n1 n2 addr len
  | samp md n1 n2 addr len => exact Laws.EncodeMatchesRow.samp md n1 n2 addr len

theorem decode_encode (hi : i.WellFormed) : decode (encode i) = .ok i := by
  obtain ⟨r, hr, -, hmatch, hread⟩ := encode_matches_row i hi
  exact decode_eq_ok_iff.mpr ⟨r, hr, rowMatches_iff.mp hmatch, hread⟩

/-- Settles O8: the row of the instruction's mnemonic matches its command and reads the instruction back. -/
theorem decodeOfEncodeIsTheInstruction : Obligations.DecodeOfEncodeIsTheInstruction :=
  fun _ => decode_encode

/-- Settles O7: each word is the encoding of its instruction, so it decodes to it. -/
theorem workedEncodingsDecode : Obligations.WorkedEncodingsDecode := by
  have both {i : Instr} {cmd : Command} (hi : i.WellFormed) (he : encode i = cmd) :
      decode cmd = .ok i ∧ encode i = cmd := ⟨he ▸ decode_encode hi, he⟩
  exact ⟨both rfl (by decide), both rfl (by decide), both rfl (by decide), both rfl (by decide), both rfl (by decide),
    by decide⟩

/-! ## Encoding a decoded command: each bit of a command is fixed by the mask or lies in an operand field -/

/-- Equal fields, bit by bit. -/
theorem getLsbD_eq_of_cmdField_eq {lo width b : Nat} (h : cmdField cmd lo width = cmdField cmd' lo width) (hlo : lo ≤ b)
    (hb : b < lo + width) : cmd.getLsbD b = cmd'.getLsbD b := by
  obtain ⟨t, rfl⟩ := Nat.exists_eq_add_of_le hlo
  have hbit := congrArg (BitVec.getLsbD · t) (BitVec.eq_of_toNat_eq h)
  simpa [show t < width by omega] using hbit

/-- Commands that agree under a mask and in fields that hold every other bit are equal; a field is its lowest bit and
its width. -/
theorem eq_of_mask_of_fields {mask : Command} (fields : List (Nat × Nat))
    (hcover : ∀ b : Fin 128, mask.getLsbD b = true ∨ ∃ f ∈ fields, f.1 ≤ b.val ∧ b.val < f.1 + f.2)
    (hmask : cmd &&& mask = cmd' &&& mask) (hfields : ∀ f ∈ fields, cmdField cmd f.1 f.2 = cmdField cmd' f.1 f.2) :
    cmd = cmd' := by
  refine BitVec.eq_of_getLsbD_eq fun b hb => ?_
  rcases hcover ⟨b, hb⟩ with hfixed | ⟨f, hf, hlo, hhi⟩
  · have hbit := congrArg (BitVec.getLsbD · b) hmask
    simpa [show mask.getLsbD b = true from hfixed] using hbit
  · exact getLsbD_eq_of_cmdField_eq (hfields f hf) hlo hhi

theorem cmdField_lt (cmd : Command) (lo width : Nat) : cmdField cmd lo width < 2 ^ width := BitVec.isLt _

/-- A register operand is the low 3 bits of its field (R93). -/
theorem cmdReg_val (cmd : Command) (lo : Nat) : (cmdReg cmd lo).val = cmdField cmd lo 3 :=
  Nat.mod_eq_of_lt (cmdField_lt cmd lo 3)

theorem cmdField_eq_of_cmdReg_eq {lo : Nat} (h : cmdReg cmd lo = cmdReg cmd' lo) :
    cmdField cmd lo 3 = cmdField cmd' lo 3 := by
  rw [← cmdReg_val, ← cmdReg_val, h]

/-- Two commands of format C under the mask that read the same are equal. -/
theorem readCsrw_inj (hmask : cmd &&& maskC = cmd' &&& maskC)
    (hread : Instr.csrw (cmdN1 cmd) (cmdAddr cmd) = .csrw (cmdN1 cmd') (cmdAddr cmd')) : cmd = cmd' := by
  obtain ⟨hcsr, hvalue⟩ := Instr.csrw.inj hread
  refine eq_of_mask_of_fields [(32, 16), (64, 32)] (by decide) hmask ?_
  simpa using ⟨hcsr, hvalue⟩

/-- Two commands of format D1 under the mask that read the same are equal. -/
theorem readMclr_inj (hmask : cmd &&& maskD1 = cmd' &&& maskD1)
    (hread : Instr.mclr (cmdMd cmd) = .mclr (cmdMd cmd')) : cmd = cmd' := by
  have hmd := cmdField_eq_of_cmdReg_eq (Instr.mclr.inj hread)
  exact eq_of_mask_of_fields [(8, 3)] (by decide) hmask (by simpa using hmd)

/-- Two commands of format A3 under the mask that read the same are equal. -/
theorem readA3_inj {mk : MReg → MReg → MReg → Instr}
    (hmk : ∀ {a b c a' b' c'}, mk a b c = mk a' b' c' → a = a' ∧ b = b' ∧ c = c')
    (hmask : cmd &&& maskA3 = cmd' &&& maskA3) (hread : readA3 mk cmd = readA3 mk cmd') : cmd = cmd' := by
  obtain ⟨hmd, hma, hmb⟩ := hmk hread
  refine eq_of_mask_of_fields [(8, 3), (12, 3), (16, 3)] (by decide) hmask ?_
  simpa using ⟨cmdField_eq_of_cmdReg_eq hmd, cmdField_eq_of_cmdReg_eq hma, cmdField_eq_of_cmdReg_eq hmb⟩

/-- Two commands of format A4 under the mask that read the same are equal. -/
theorem readMmac_inj (hmask : cmd &&& maskA4 = cmd' &&& maskA4)
    (hread : Instr.mmac (cmdMd cmd) (cmdMa cmd) (cmdMb cmd) (cmdMc cmd) =
      .mmac (cmdMd cmd') (cmdMa cmd') (cmdMb cmd') (cmdMc cmd')) : cmd = cmd' := by
  obtain ⟨hmd, hma, hmb, hmc⟩ := Instr.mmac.inj hread
  refine eq_of_mask_of_fields [(8, 3), (12, 3), (16, 3), (20, 3)] (by decide) hmask ?_
  simpa using ⟨cmdField_eq_of_cmdReg_eq hmd, cmdField_eq_of_cmdReg_eq hma, cmdField_eq_of_cmdReg_eq hmb,
    cmdField_eq_of_cmdReg_eq hmc⟩

/-- Two commands of format S under the mask that read the same are equal. -/
theorem readS_inj {mk : MReg → Nat → Nat → Instr}
    (hmk : ∀ {a b c a' b' c'}, mk a b c = mk a' b' c' → a = a' ∧ b = b' ∧ c = c')
    (hmask : cmd &&& maskS = cmd' &&& maskS) (hread : readS mk cmd = readS mk cmd') : cmd = cmd' := by
  obtain ⟨hma, haddr, hlen⟩ := hmk hread
  refine eq_of_mask_of_fields [(12, 3), (64, 32), (96, 32)] (by decide) hmask ?_
  simpa using ⟨cmdField_eq_of_cmdReg_eq hma, haddr, hlen⟩

/-- Two commands of format L under the mask that read the same are equal. -/
theorem readL_inj {mk : MReg → Nat → Nat → Nat → Nat → Instr}
    (hmk : ∀ {a b c d e a' b' c' d' e'}, mk a b c d e = mk a' b' c' d' e' → a = a' ∧ b = b' ∧ c = c' ∧ d = d' ∧ e = e')
    (hmask : cmd &&& maskL = cmd' &&& maskL) (hread : readL mk cmd = readL mk cmd') : cmd = cmd' := by
  obtain ⟨hmd, hn1, hn2, haddr, hlen⟩ := hmk hread
  refine eq_of_mask_of_fields [(8, 3), (32, 16), (48, 16), (64, 32), (96, 32)] (by decide) hmask ?_
  simpa using ⟨cmdField_eq_of_cmdReg_eq hmd, hn1, hn2, haddr, hlen⟩

/-- Two commands of one row that read the same are equal: the mask and the used fields hold every bit (R92, R96). -/
theorem row_read_inj : ∀ r ∈ opcodeTable, cmd &&& r.mask = cmd' &&& r.mask → r.read cmd = r.read cmd' → cmd = cmd' := by
  simp only [opcodeTable, List.forall_mem_cons]
  exact ⟨fun hmask _ => eq_of_mask_of_fields [] (by decide) hmask nofun, readCsrw_inj, readMclr_inj,
    readA3_inj Instr.madd.inj, readA3_inj Instr.msub.inj, readMmac_inj, readL_inj Instr.enc.inj,
    readS_inj Instr.dec.inj, readS_inj Instr.pack.inj, readL_inj Instr.unpk.inj, readL_inj Instr.ldbe.inj,
    readL_inj Instr.samp.inj, nofun⟩

theorem fits16_cmdField (cmd : Command) (lo : Nat) : fits16 (cmdField cmd lo 16) = true :=
  decide_eq_true (cmdField_lt cmd lo 16)

theorem fits32_cmdField (cmd : Command) (lo : Nat) : fits32 (cmdField cmd lo 32) = true :=
  decide_eq_true (cmdField_lt cmd lo 32)

theorem fitsC_cmd (cmd : Command) : (fits16 (cmdN1 cmd) && fits32 (cmdAddr cmd)) = true := by
  rw [cmdN1, cmdAddr, fits16_cmdField, fits32_cmdField]; rfl

theorem fitsS_cmd (cmd : Command) : (fits32 (cmdAddr cmd) && fits32 (cmdLen cmd)) = true := by
  rw [cmdAddr, cmdLen, fits32_cmdField, fits32_cmdField]; rfl

theorem fitsL_cmd (cmd : Command) : fitsL (cmdN1 cmd) (cmdN2 cmd) (cmdAddr cmd) (cmdLen cmd) = true := by
  simp only [fitsL, cmdN1, cmdN2, cmdAddr, cmdLen, fits16_cmdField, fits32_cmdField, Bool.and_self]

/-- What a row reads is well-formed: each scalar operand comes out of its field. -/
theorem row_read_wellFormed (cmd : Command) : ∀ r ∈ opcodeTable, (r.read cmd).WellFormed := by
  simp only [opcodeTable, List.forall_mem_cons]
  exact ⟨rfl, fitsC_cmd cmd, rfl, rfl, rfl, rfl, fitsL_cmd cmd, fitsS_cmd cmd, fitsS_cmd cmd, fitsL_cmd cmd,
    fitsL_cmd cmd, fitsL_cmd cmd, nofun⟩

theorem mnemonicOf_row_read (cmd : Command) :
    ∀ r ∈ opcodeTable, Laws.EncodeMatchesRow.mnemonicOf (r.read cmd) = r.mnemonic := by
  simp only [opcodeTable, List.forall_mem_cons]
  exact ⟨rfl, rfl, rfl, rfl, rfl, rfl, rfl, rfl, rfl, rfl, rfl, rfl, nofun⟩

/-- The encoding of what a row reads from a matching command is the command. -/
theorem encode_row_read (hr : r ∈ opcodeTable) (hmatch : cmd &&& r.mask = r.pattern) : encode (r.read cmd) = cmd := by
  obtain ⟨r', hr', hmnemonic, hmatch', hread⟩ := encode_matches_row _ (row_read_wellFormed cmd r hr)
  have mnemonics_nodup : (opcodeTable.map Row.mnemonic).Nodup := by decide
  obtain rfl := List.inj_on_of_nodup_map mnemonics_nodup hr' hr (hmnemonic.trans (mnemonicOf_row_read cmd r hr))
  exact row_read_inj r' hr ((rowMatches_iff.mp hmatch').trans hmatch.symm) hread

/-- Settles O9: the encoding of what the row reads matches the row and reads the same, so it is the command. -/
theorem encodeOfDecodedIsTheCommand : Obligations.EncodeOfDecodedIsTheCommand := by
  intro cmd i hdecode
  obtain ⟨r, hr, hmatch, rfl⟩ := decode_eq_ok_iff.mp hdecode
  exact ⟨row_read_wellFormed cmd r hr, encode_row_read hr hmatch⟩

/-! ## Issuing a command (R98, R99) -/

variable {s : State} {rest : List Transaction}

theorem step_issue_decoded (hport : s.port = .issue cmd :: rest) (hf : s.fault = false) (hdecode : decode cmd = .ok i) :
    step s = exec i (s.accept rest) := by
  simp [step_issue hport, issue, hf, hdecode]

theorem step_issue_of_no_row (hport : s.port = .issue cmd :: rest) (hf : s.fault = false)
    (hno : ∀ r ∈ opcodeTable, cmd &&& r.mask ≠ r.pattern) : step s = .next ((s.accept rest).takeFault .illegalCommand) := by
  rw [step_issue hport]
  rcases issue_cases cmd (s.accept rest) with ⟨hfault, -⟩ | ⟨-, -, hissue⟩ | ⟨i, -, hdecode, -⟩
  · exact absurd (hf.symm.trans hfault) Bool.false_ne_true
  · exact hissue
  · obtain ⟨r, hr, hmatch, -⟩ := decode_eq_ok_iff.mp hdecode
    exact absurd hmatch (hno r hr)

/-- Settles O5: the step hands the decoded command to `exec`. -/
theorem stepRunsTheDecodedCommand : Obligations.StepRunsTheDecodedCommand :=
  fun _ _ _ _ => step_issue_decoded

/-- Settles O11: a row's command has a known opcode and no bit of 31 to 24 set, so each reason excludes every row. -/
theorem illegalValuesRaiseIllegalCommand : Obligations.IllegalValuesRaiseIllegalCommand := by
  intro s cmd rest hport hf hillegal
  refine step_issue_of_no_row hport hf fun r hr hmatch => ?_
  have pattern_bytes : ∀ r ∈ opcodeTable, (r.pattern.extractLsb' 0 8).toNat ∈
      [0x01, 0x02, 0x03, 0x10, 0x11, 0x12, 0x20, 0x21, 0x22, 0x23, 0x24, 0x30] ∧ r.pattern.extractLsb' 24 8 = 0#8 := by
    decide
  obtain ⟨hopcode, hzero⟩ := pattern_bytes r hr
  rcases hillegal with hunknown | hset | hno
  · exact hunknown (opcode_of_match hr hmatch ▸ hopcode)
  · exact hset ((extractLsb'_of_match hmatch (mask_fixed_bytes r hr).2).trans hzero)
  · exact hno r hr hmatch

end Sys2Proof
end

section
/-! Proofs about the arithmetic commands `MADD`, `MSUB` and `MMAC` over `Z_q` (R121, R124, R128 to R131). -/

namespace Sys2Proof.Machine

variable {d : Nat} {A B E : Mat} {r c : Nat}

/-! ## Residues (R121) -/

/-- For `D ≤ 16` the reduced entry is congruent to the integer it was computed from (R121). -/
theorem reduce_modEq (hd : d ≤ 16) (v : Int) : ((reduce d v).toNat : Int) ≡ v [ZMOD (2 ^ d : Nat)] := by
  rw [reduce_toNat hd]
  exact Int.mod_modEq ..

/-- Reducing congruent integers entry by entry builds one matrix. -/
theorem Mat.ofFn_reduce_congr {n1 n2 : Nat} {v v' : Nat → Nat → Int}
    (h : ∀ r c, r < n1 → c < n2 → v r c ≡ v' r c [ZMOD (2 ^ d : Nat)]) :
    Mat.ofFn n1 n2 (fun r c => reduce d (v r c)) = Mat.ofFn n1 n2 fun r c => reduce d (v' r c) :=
  Mat.ofFn_congr fun r c hr hc => reduce_congr (h r c hr hc)

/-- A matrix with entries below `q` is built by reducing any integers congruent to its entries. -/
theorem Mat.ofFn_reduce (hA : A.Wf) (hq : A.Below d) {v : Nat → Nat → Int}
    (h : ∀ r c, r < A.rows → c < A.cols → v r c ≡ (A.entry r c).toNat [ZMOD (2 ^ d : Nat)]) :
    Mat.ofFn A.rows A.cols (fun r c => reduce d (v r c)) = A := by
  obtain ⟨-, -, hlen⟩ := hA
  calc Mat.ofFn A.rows A.cols (fun r c => reduce d (v r c))
      = Mat.ofFn A.rows A.cols (fun r c => reduce d (A.entry r c).toNat) := Mat.ofFn_reduce_congr h
    _ = Mat.ofFn A.rows A.cols A.entry := Mat.ofFn_congr fun r c hr hc =>
        reduce_of_lt _ (hq _ (Mat.at_mem (hlen ▸ linearIndex_lt hr hc)))
    _ = A := Mat.ofFn_self hlen

/-! ## The entries of a sum, a difference and a product (R128 to R130) -/

theorem matAdd_entry (hr : r < A.rows) (hc : c < A.cols) :
    (matAdd d A B).entry r c = reduce d ((A.entry r c).toNat + (B.entry r c).toNat) := Mat.ofFn_entry _ hr hc

theorem matSub_entry (hr : r < A.rows) (hc : c < A.cols) :
    (matSub d A B).entry r c = reduce d ((A.entry r c).toNat - (B.entry r c).toNat + (2 ^ d : Nat)) :=
  Mat.ofFn_entry _ hr hc

theorem matMulAdd_entry (hr : r < A.rows) (hc : c < B.cols) :
    (matMulAdd d A B E).entry r c = reduce d ((E.entry r c).toNat + dotProduct A B r c A.cols) := Mat.ofFn_entry _ hr hc

theorem matAdd_entry_toNat (hd : d ≤ 16) (hr : r < A.rows) (hc : c < A.cols) :
    ((matAdd d A B).entry r c).toNat = ((A.entry r c).toNat + (B.entry r c).toNat) % 2 ^ d := by
  rw [matAdd_entry hr hc, ← Nat.cast_add, reduce_natCast_toNat hd]

/-- The `q` that `MSUB` adds before reducing does not change the residue (R125). -/
theorem matSub_entry_toNat (hd : d ≤ 16) (hr : r < A.rows) (hc : c < A.cols) :
    (((matSub d A B).entry r c).toNat : Int) = ((A.entry r c).toNat - (B.entry r c).toNat : Int) % 2 ^ d := by
  rw [matSub_entry hr hc, reduce_toNat hd, Int.add_emod_right, Nat.cast_pow, Nat.cast_ofNat]

theorem matMulAdd_entry_toNat (hd : d ≤ 16) (hr : r < A.rows) (hc : c < B.cols) :
    ((matMulAdd d A B E).entry r c).toNat = ((E.entry r c).toNat + dotProduct A B r c A.cols) % 2 ^ d := by
  rw [matMulAdd_entry hr hc, ← Nat.cast_add, reduce_natCast_toNat hd]

theorem dotProduct_eq_sum (A B : Mat) (r c n : Nat) :
    dotProduct A B r c n = ∑ k ∈ Finset.range n, (A.entry r k).toNat * (B.entry k c).toNat := by
  induction n with
  | zero => rfl
  | succ n ih => rw [dotProduct, Finset.sum_range_succ, ih]

/-! ## The commands -/

/-- Settles O37: `MADD` completes with `matAdd`, also when `md` is a source. -/
theorem maddAddsModQ : Obligations.MaddAddsModQ :=
  fun s _ _ _ A B hd ha hb hrows hcols =>
    ⟨matAdd s.logQ A B, exec_of_effect (.madd hd ha hb ⟨hrows, hcols⟩), rfl, rfl, Mat.ofFn_length ..,
      fun _ _ => matAdd_entry_toNat hd.2⟩

/-- Settles O38: `MSUB` completes with `matSub`, also when `md` is a source. -/
theorem msubSubtractsModQ : Obligations.MsubSubtractsModQ :=
  fun s _ _ _ A B hd ha hb hrows hcols =>
    ⟨matSub s.logQ A B, exec_of_effect (.msub hd ha hb ⟨hrows, hcols⟩), rfl, rfl, Mat.ofFn_length ..,
      fun _ _ => matSub_entry_toNat hd.2⟩

/-- Settles O39: `MMAC` completes with `matMulAdd`, also when `md` is a source. -/
theorem mmacMultipliesAndAddsModQ : Obligations.MmacMultipliesAndAddsModQ := by
  intro s md ma mb mc A B E hd ha hb hE hinner hrows hcols
  refine ⟨matMulAdd s.logQ A B E, exec_of_effect (.mmac hd ha hb hE ⟨hinner, hrows, hcols⟩), rfl, rfl,
    Mat.ofFn_length .., fun r c hr hc => ?_⟩
  rw [← dotProduct_eq_sum, Nat.add_comm]
  exact matMulAdd_entry_toNat hd.2 hr hc

/-! ## The laws of `Z_q` matrices (R131) -/

/-- The matrix of zeros. -/
abbrev zeroMat (n1 n2 : Nat) : Mat := Mat.ofFn n1 n2 fun _ _ => 0

theorem zeroMat_entry {n1 n2 : Nat} (hr : r < n1) (hc : c < n2) : (zeroMat n1 n2).entry r c = 0 := Mat.ofFn_entry _ hr hc

/-- The identity matrix. -/
abbrev identityMat (n : Nat) : Mat := Mat.ofFn n n fun r c => if r = c then 1 else 0

theorem identityMat_entry {n : Nat} (hr : r < n) (hc : c < n) :
    (identityMat n).entry r c = if r = c then 1 else 0 := Mat.ofFn_entry _ hr hc

theorem matAdd_comm (h : A.SameShape B) : matAdd d A B = matAdd d B A := by
  obtain ⟨hrows, hcols⟩ := h
  simp only [matAdd, hrows, hcols, Int.add_comm]

theorem matSub_matAdd_cancel_right (hd : d ≤ 16) (hA : A.Wf) (hq : A.Below d) : matSub d (matAdd d A B) B = A := by
  refine Mat.ofFn_reduce hA hq fun r c hr hc => ?_
  have hsum : (((matAdd d A B).entry r c).toNat : Int) ≡
      (A.entry r c).toNat + (B.entry r c).toNat [ZMOD (2 ^ d : Nat)] := by
    rw [matAdd_entry hr hc]
    exact reduce_modEq hd _
  calc ((matAdd d A B).entry r c).toNat - (B.entry r c).toNat + (2 ^ d : Nat)
      ≡ (A.entry r c).toNat + (B.entry r c).toNat - (B.entry r c).toNat + (2 ^ d : Nat) [ZMOD (2 ^ d : Nat)] :=
        (hsum.sub_right _).add_right _
    _ = (A.entry r c).toNat + (2 ^ d : Nat) := by rw [Int.add_sub_cancel]
    _ ≡ (A.entry r c).toNat [ZMOD (2 ^ d : Nat)] := Int.add_emod_right ..

/-- Subtraction is the addition of the negative, the difference from the zero matrix. -/
theorem matSub_eq_matAdd_neg (hd : d ≤ 16) :
    matSub d A B = matAdd d A (matSub d (zeroMat A.rows A.cols) B) := by
  refine Mat.ofFn_reduce_congr fun r c hr hc => ?_
  have hneg : (((matSub d (zeroMat A.rows A.cols) B).entry r c).toNat : Int) ≡
      -(B.entry r c).toNat + (2 ^ d : Nat) [ZMOD (2 ^ d : Nat)] := by
    rw [matSub_entry (A := zeroMat A.rows A.cols) hr hc, zeroMat_entry hr hc]
    simpa using reduce_modEq hd (0 - (B.entry r c).toNat + (2 ^ d : Nat))
  calc (A.entry r c).toNat - (B.entry r c).toNat + (2 ^ d : Nat)
      = (A.entry r c).toNat + (-(B.entry r c).toNat + (2 ^ d : Nat) : Int) := by omega
    _ ≡ _ [ZMOD (2 ^ d : Nat)] := (hneg.add_left _).symm

/-- The addend of a multiply-add can be added afterwards. -/
theorem matMulAdd_eq_matAdd (hd : d ≤ 16) {P Q : Mat} (hP : P.rows = A.rows) (hQ : Q.cols = A.cols) :
    matMulAdd d P Q A = matAdd d (matMulAdd d P Q (zeroMat A.rows A.cols)) A := by
  refine Mat.ofFn_reduce_congr fun r c hr hc => ?_
  have hproduct : (((matMulAdd d P Q (zeroMat A.rows A.cols)).entry r c).toNat : Int) ≡
      dotProduct P Q r c P.cols [ZMOD (2 ^ d : Nat)] := by
    rw [matMulAdd_entry hr hc, zeroMat_entry (hP ▸ hr) (hQ ▸ hc)]
    simpa using reduce_modEq hd (dotProduct P Q r c P.cols)
  rw [Int.add_comm]
  exact (hproduct.add_right _).symm

theorem dotProduct_identityMat (hc : c < A.cols) :
    dotProduct A (identityMat A.cols) r c A.cols = (A.entry r c).toNat := by
  rw [dotProduct_eq_sum, Finset.sum_eq_single_of_mem c (Finset.mem_range.mpr hc)]
  · simp [identityMat_entry hc hc]
  · intro k hk hne
    simp [identityMat_entry (Finset.mem_range.mp hk) hc, hne]

theorem matMulAdd_identityMat (hA : A.Wf) (hq : A.Below d) :
    matMulAdd d A (identityMat A.cols) (zeroMat A.rows A.cols) = A := by
  refine Mat.ofFn_reduce hA hq fun r c hr hc => ?_
  rw [zeroMat_entry hr hc, dotProduct_identityMat hc]
  simp

/-- Settles O40, law by law; the second law is the first one after commuting the sum. -/
theorem arithmeticObeysTheRingLaws : Obligations.ArithmeticObeysTheRingLaws := by
  intro d A B _ hd hA hB hAq hBq hshape
  refine ⟨matSub_matAdd_cancel_right hd hA hAq, ?_, matAdd_comm hshape, matSub_eq_matAdd_neg hd,
    fun P Q => matMulAdd_eq_matAdd hd, matMulAdd_identityMat hA hAq⟩
  rw [matAdd_comm hshape]
  exact matSub_matAdd_cancel_right hd hB hBq

/-! ## The accumulator (R124, R46) -/

/-- Each of the products is at most `(2^16 - 1)^2`. -/
theorem dotProduct_le (A B : Mat) (r c n : Nat) : dotProduct A B r c n ≤ n * (65535 * 65535) := by
  induction n with
  | zero => simp [dotProduct]
  | succ n ih =>
    have hproduct : (A.entry r n).toNat * (B.entry n c).toNat ≤ 65535 * 65535 :=
      Nat.mul_le_mul (Nat.le_of_lt_succ (A.entry r n).isLt) (Nat.le_of_lt_succ (B.entry n c).isLt)
    rw [dotProduct]
    omega

/-- An accumulator of `W` bits holds the exact sum modulo `2^W`. -/
theorem foldl_accumulator (A B : Mat) (r c W e n : Nat) :
    (List.range n).foldl (fun (acc : BitVec W) k =>
      acc + BitVec.ofNat W (A.entry r k).toNat * BitVec.ofNat W (B.entry k c).toNat) (BitVec.ofNat W e) =
      BitVec.ofNat W (e + dotProduct A B r c n) := by
  induction n with
  | zero => rfl
  | succ n ih =>
    rw [List.range_succ, List.foldl_append, ih, List.foldl_cons, List.foldl_nil, ← BitVec.ofNat_mul, ← BitVec.ofNat_add,
      dotProduct, Nat.add_assoc]

/-- Settles O41: `2^d` divides `2^W`, so the wrapping modulo `2^W` does not change the residue modulo `2^d`. -/
theorem accumulatorWidthCannotBeObserved : Obligations.AccumulatorWidthCannotBeObserved := by
  intro d W A B E r c _ hd hW hr hc hn
  constructor
  · have hE := (E.entry r c).isLt
    have hsum := dotProduct_le A B r c A.cols
    rw [← dotProduct_eq_sum]
    omega
  · rw [matMulAdd_entry_toNat hd hr hc, foldl_accumulator, BitVec.toNat_ofNat, Nat.mod_mod_of_dvd _ (pow_dvd_pow 2 hW)]

end Sys2Proof.Machine
end

section
/-! Proofs about the integer codec `ec`, `dc` (R141 to R144). -/

namespace Sys2Proof.Machine

variable {d b k c : Nat}

/-! ## The step `2^(D-B)` and half of it -/

section
variable {R : Type} [Semiring R]

/-- `q` is `2^B` steps (R141). -/
theorem two_pow_mul_step (hb : b ≤ d) : (2 : R) ^ b * 2 ^ (d - b) = 2 ^ d := pow_mul_pow_sub 2 hb

theorem two_mul_halfStep (hb : b < d) : (2 : R) * 2 ^ (d - b - 1) = 2 ^ (d - b) := mul_pow_sub_one (by omega) 2

end

/-! ## `ec` (R141) -/

/-- `k` steps stay below `q`, so the mask of R141 removes nothing. -/
theorem ec_toNat (hb : b ≤ d) (hd : d ≤ 16) (hk : k < 2 ^ b) : (ec d b k).toNat = k * 2 ^ (d - b) := by
  have hlt : k * 2 ^ (d - b) < 2 ^ d :=
    two_pow_mul_step (R := Nat) hb ▸ Nat.mul_lt_mul_of_pos_right hk (Nat.two_pow_pos _)
  rw [ec, reduce_natCast_toNat hd, Nat.shiftLeft_eq, Nat.mod_eq_of_lt hlt]

/-- Settles O42: each value is `ec_toNat` at that `k`. -/
theorem ecPlacesTheHighBits : Obligations.EcPlacesTheHighBits := by
  intro d b hb1 hb hd
  have hpos : 0 < 2 ^ b := Nat.two_pow_pos b
  have hone : 1 < 2 ^ b := Nat.one_lt_two_pow (by omega)
  refine ⟨fun k hk => ⟨ec_toNat hb hd hk, reduce_lt hd _⟩, ?_, ?_, ?_, ?_⟩
  · rw [ec_toNat hb hd hpos, Nat.zero_mul]
  · rw [ec_toNat hb hd hone, Nat.one_mul]
  · rw [ec_toNat hb hd (Nat.sub_one_lt_of_lt hpos), Nat.sub_one_mul, two_pow_mul_step hb]
  · rintro rfl k hk
    rw [ec_toNat hb hd hk, Nat.sub_self, Nat.pow_zero, Nat.mul_one]

/-! ## `dc` (R142) -/

theorem dc_of_lt (hb : b < d) (c : Nat) : dc d b c = (c + 2 ^ (d - b - 1)) / 2 ^ (d - b) % 2 ^ b := by
  rw [dc, if_pos (by omega), Nat.shiftRight_eq_div_pow, Nat.and_two_pow_sub_one_eq_mod]

/-- For `B = D` nothing is rounded (R142). -/
theorem dc_self (hc : c < 2 ^ d) : dc d d c = c := by
  rw [dc, if_neg (by omega), Nat.and_two_pow_sub_one_eq_mod, Nat.mod_eq_of_lt hc]

/-- Adding one half and rounding down to whole steps is done over the integers by adding half a step. -/
theorem floor_steps_add_half (hb : b < d) (c : Nat) :
    ⌊(c : ℚ) / 2 ^ (d - b) + 1 / 2⌋ = (((c + 2 ^ (d - b - 1)) / 2 ^ (d - b) : Nat) : Int) := by
  have hhalf := two_mul_halfStep (R := ℚ) hb
  have hstep : (c : ℚ) / 2 ^ (d - b) + 1 / 2 = ((c + 2 ^ (d - b - 1) : Nat) : ℚ) / ((2 ^ (d - b) : Nat) : ℚ) := by
    push_cast
    rw [← hhalf]
    field_simp
  rw [hstep, Rat.floor_natCast_div_natCast]
  norm_cast

/-- Settles O43: over the rationals by `floor_steps_add_half`. -/
theorem dcRoundsHalfUp : Obligations.DcRoundsHalfUp := by
  refine ⟨fun d b c _ _ _ hc => ⟨fun hb => ⟨?_, dc_of_lt hb c⟩, ?_⟩, by decide⟩
  · rw [floor_steps_add_half hb, dc_of_lt hb]
    norm_cast
  · rintro rfl
    exact dc_self hc

/-! ## The intervals of `dc` (R143) and `dc` after `ec` (R144) -/

/-- From half a step below `j` steps to half a step above, `dc` is `j`, modulo `2^B` (R143). -/
theorem dc_of_interval {j : Nat} (hb : b < d) (hlo : j * 2 ^ (d - b) ≤ c + 2 ^ (d - b - 1))
    (hhi : c < j * 2 ^ (d - b) + 2 ^ (d - b - 1)) : dc d b c = j % 2 ^ b := by
  have hhalf := two_mul_halfStep (R := Nat) hb
  rw [dc_of_lt hb, Nat.div_eq_of_lt_le hlo (by rw [Nat.succ_mul]; omega)]

theorem dc_ec (hb : b ≤ d) (hd : d ≤ 16) (hk : k < 2 ^ b) : dc d b (ec d b k).toNat = k := by
  rw [ec_toNat hb hd hk]
  obtain hlt | rfl := Nat.lt_or_eq_of_le hb
  · have hhalf : 0 < 2 ^ (d - b - 1) := Nat.two_pow_pos _
    rw [dc_of_interval hlt (j := k) (by omega) (by omega), Nat.mod_eq_of_lt hk]
  · rw [Nat.sub_self, Nat.pow_zero, Nat.mul_one, dc_self hk]

/-- Settles O45: an encoded integer lies in the middle of its own interval (`dc_ec`). -/
theorem dcOfEcIsTheInteger : Obligations.DcOfEcIsTheInteger := fun _ _ _ _ hb hd hk => dc_ec hb hd hk

/-- On the residue of any integer `dc` counts its steps, rounded half up, modulo `2^B`: a multiple of `q` more is a
multiple of `2^B` steps more. -/
theorem dc_reduce (hb : b < d) (hd : d ≤ 16) (v : Int) :
    ((dc d b (reduce d v).toNat : Nat) : Int) = (v + 2 ^ (d - b - 1)) / 2 ^ (d - b) % 2 ^ b := by
  have hres : v % 2 ^ d + 2 ^ (d - b - 1) = v + 2 ^ (d - b - 1) + -(2 ^ b * (v / 2 ^ d)) * 2 ^ (d - b) := by
    rw [Int.emod_def, ← two_pow_mul_step hb.le]
    ring
  rw [dc_of_lt hb]
  push_cast
  rw [reduce_toNat hd, Nat.cast_pow, Nat.cast_ofNat, hres, Int.add_mul_ediv_right _ _ (by positivity),
    ← Int.mul_neg, Int.add_mul_emod_self_left]

/-- An error of at most half of `q` is, rounded to whole steps, less than `2^B` steps either way. -/
theorem abs_steps_lt (hb : b < d) {e : Int} (hlo : -(2 ^ (d - 1) : Int) ≤ e) (hhi : e < 2 ^ (d - 1)) :
    |(e + 2 ^ (d - b - 1)) / 2 ^ (d - b)| < 2 ^ b := by
  have hstep : (0 : Int) < 2 ^ (d - b) := by positivity
  have hhalf := two_mul_halfStep (R := Int) hb
  have hq := two_pow_mul_step (R := Int) hb.le
  have hhalfq : (2 : Int) * 2 ^ (d - 1) = 2 ^ d := mul_pow_sub_one (by omega) 2
  have hle : (2 : Int) ^ (d - b - 1) ≤ 2 ^ (d - 1) := pow_le_pow_right₀ (by decide) (by omega)
  rw [abs_lt]
  constructor
  · rw [← Int.add_one_le_iff, Int.le_ediv_iff_mul_le hstep]
    linarith
  · rw [Int.ediv_lt_iff_lt_mul hstep]
    linarith

/-- `k` steps and an error of at most half of `q` decode to `k` exactly when the error is less than half a step, the
lower end included (R143). -/
theorem dc_reduce_steps_add_eq_iff (hb : b < d) (hd : d ≤ 16) (hk : k < 2 ^ b) {e : Int}
    (hlo : -(2 ^ (d - 1) : Int) ≤ e) (hhi : e < 2 ^ (d - 1)) :
    dc d b (reduce d ((k * 2 ^ (d - b) : Nat) + e)).toNat = k ↔
      -(2 ^ (d - b - 1) : Int) ≤ e ∧ e < 2 ^ (d - b - 1) := by
  have hstep : (0 : Int) < 2 ^ (d - b) := by positivity
  have hhalf := two_mul_halfStep (R := Int) hb
  have hsteps : ((k * 2 ^ (d - b) : Nat) + e + 2 ^ (d - b - 1) : Int) / 2 ^ (d - b) =
      k + (e + 2 ^ (d - b - 1)) / 2 ^ (d - b) := by
    push_cast
    rw [add_assoc, Int.mul_comm, Int.mul_add_ediv_left _ _ hstep.ne']
  have hk' : (k : Int) % 2 ^ b = k := by exact_mod_cast Nat.mod_eq_of_lt hk
  calc dc d b (reduce d ((k * 2 ^ (d - b) : Nat) + e)).toNat = k
      ↔ (k : Int) + (e + 2 ^ (d - b - 1)) / 2 ^ (d - b) ≡ k [ZMOD 2 ^ b] := by
        rw [← Int.natCast_inj, dc_reduce hb hd, hsteps, Int.ModEq, hk']
    _ ↔ (2 : Int) ^ b ∣ (e + 2 ^ (d - b - 1)) / 2 ^ (d - b) := Int.add_modEq_left_iff
    _ ↔ (e + 2 ^ (d - b - 1)) / 2 ^ (d - b) = 0 :=
        ⟨fun h => Int.eq_zero_of_abs_lt_dvd h (abs_steps_lt hb hlo hhi), fun h => h ▸ dvd_zero _⟩
    _ ↔ -(2 ^ (d - b - 1) : Int) ≤ e ∧ e < 2 ^ (d - b - 1) := by
        rw [Int.ediv_eq_iff_of_pos hstep]
        constructor <;> rintro ⟨h1, h2⟩ <;> constructor <;> linarith

/-- Settles O44: the intervals by `dc_of_interval`, the last one at `j = 2^B`; the tolerance by
`dc_reduce_steps_add_eq_iff`. -/
theorem dcToleratesHalfAStep : Obligations.DcToleratesHalfAStep := by
  intro d b _ hb hd
  have hhalf := two_mul_halfStep (R := Nat) hb
  have hq := two_pow_mul_step (R := Nat) hb.le
  have hd16 : 2 ^ d ≤ 2 ^ 16 := Nat.pow_le_pow_right (by decide) hd
  have hhalf_lt : 2 ^ (d - b - 1) < 2 ^ d := Nat.pow_lt_pow_right (by decide) (by omega)
  refine ⟨fun j c _ hj hlo hhi => ?_, fun c hc => ?_, fun c hlo hc => ?_, fun c hc => ?_, fun k e hk hlo hhi => ?_⟩
  · rw [dc_of_interval hb (by omega) hhi, Nat.mod_eq_of_lt hj]
  · rw [dc_of_interval (j := 0) hb (by omega) (by omega), Nat.zero_mod]
  · rw [dc_of_interval (j := 2 ^ b) hb (by omega) (by omega), Nat.mod_self]
  · omega
  · rw [ec_toNat hb.le hd hk]
    exact dc_reduce_steps_add_eq_iff hb hd hk hlo hhi

end Sys2Proof.Machine
end

section
/-! Proofs about the codec commands `ENC`, `DEC`, `PACK` and `UNPK` (R145 to R152). -/

namespace Sys2Proof.Machine

variable {s t : State} {bit : Nat → Bool} {value : Nat → Nat} {w g n1 n2 addr addr' len : Nat}

/-! ## Dense sequences of fields (R62, R145, R148) -/

/-- Bit `k` of field `g` of a dense sequence is bit `w - 1 - k` of value `g` (R62). -/
theorem packedBit_field {k : Nat} (hk : k < w) : packedBit w value (g * w + k) = (value g).testBit (w - 1 - k) := by
  rw [packedBit, linearIndex_div hk, linearIndex_mod hk]

/-- The dense sequence of the fields of a bit string is the bit string (R149). -/
theorem packedBit_of_fields {n p : Nat} (h : ∀ g, g < n → value g = bitsValue bit (g * w) w) (hp : p < w * n) :
    packedBit w value p = bit p := by
  have hw : 0 < w := Nat.pos_of_ne_zero (by rintro rfl; simp at hp)
  rw [packedBit, h _ (Nat.div_lt_of_lt_mul hp), testBit_bitsValue _ _ _ _ (Nat.mod_lt _ hw), Nat.div_add_mod']

/-! ## What `BUF` holds after a bit string is written to a region (R10, R62) -/

theorem State.bufBit_writeBuf (s : State) {p : Nat} (hp : p < 8 * len) :
    (s.writeBuf addr (bytesOfBits bit len)).bufBit addr p = bit p := by
  rw [State.bufBit, State.bufByte_writeBuf_inside _ _ _ _ (by rw [length_bytesOfBits]; omega), getElem_bytesOfBits,
    getLsbD_byteOfBits]

theorem State.bufBit_writeBuf_packed (s : State) (hl : 8 * len = w * n1 * n2) (hg : g < n1 * n2) {k : Nat}
    (hk : k < w) :
    (s.writeBuf addr (bytesOfBits (packedBit w value) len)).bufBit addr (g * w + k) =
      (value g).testBit (w - 1 - k) := by
  have hend := field_end_le hg hl
  rw [State.bufBit_writeBuf s (by omega), packedBit_field hk]

/-- A field reads back the value written there, when it fits (R149). -/
theorem State.bitField_writeBuf_packed (s : State) (hl : 8 * len = w * n1 * n2) (hg : g < n1 * n2)
    (hv : value g < 2 ^ w) :
    (s.writeBuf addr (bytesOfBits (packedBit w value) len)).bitField addr (g * w) w = value g :=
  bitsValue_of_testBit hv fun _ hk => State.bufBit_writeBuf_packed s hl hg hk

/-- Writing the fields of a region to a region of its length copies its bytes, also when the two overlap (R149). -/
theorem State.bufByte_writeBuf_fields (t : State) (hl : 8 * len = w * n1 * n2)
    (hv : ∀ g, g < n1 * n2 → value g = s.bitField addr (g * w) w) {j : Nat} (hj : j < len) :
    (t.writeBuf addr' (bytesOfBits (packedBit w value) len)).bufByte (addr' + j) = s.bufByte (addr + j) := by
  have hbits : bitsValue (packedBit w value) (8 * j) 8 = s.bitField addr (8 * j) 8 :=
    bitsValue_congr fun k hk => packedBit_of_fields hv (by rw [← Nat.mul_assoc, ← hl]; omega)
  rw [State.bufByte_writeBuf_inside _ _ _ _ (by rw [length_bytesOfBits]; exact hj), getElem_bytesOfBits, hbits,
    State.bitField_byte, BitVec.ofNat_toNat, BitVec.setWidth_eq]

/-! ## The matrices `ENC` and `UNPK` build (R146, R151) -/

/-- An entry given by its linear index (R12). -/
theorem Mat.ofFn_at_linearIndex (f : Nat → Entry) (hg : g < n1 * n2) :
    (Mat.ofFn n1 n2 fun r c => f (r * n2 + c)).at g = f g := by
  rw [Mat.ofFn_at _ hg, Nat.div_add_mod']

theorem encMat_at (hg : g < n1 * n2) :
    (encMat s n1 n2 addr).at g = ec s.logQ s.b.toNat (s.bitField addr (g * s.b.toNat) s.b.toNat) :=
  Mat.ofFn_at_linearIndex (fun g => ec s.logQ s.b.toNat (s.bitField addr (g * s.b.toNat) s.b.toNat)) hg

theorem encMat_at_toNat (hd : s.DReady) (hb : s.BReady) (hg : g < n1 * n2) :
    ((encMat s n1 n2 addr).at g).toNat =
      s.bitField addr (g * s.b.toNat) s.b.toNat * 2 ^ (s.d.toNat - s.b.toNat) := by
  rw [encMat_at hg]
  exact ec_toNat hb.2 hd.2 (bitsValue_lt ..)

/-- A field of `D` bits fits an entry (R151). -/
theorem unpkMat_at_toNat (hd : s.DReady) (hg : g < n1 * n2) :
    ((unpkMat s n1 n2 addr).at g).toNat = s.bitField addr (g * s.logQ) s.logQ := by
  have hfits : s.bitField addr (g * s.logQ) s.logQ < 2 ^ 16 :=
    (bitsValue_lt ..).trans_le (Nat.pow_le_pow_right (by decide) hd.2)
  rw [unpkMat, Mat.ofFn_at_linearIndex (fun g => BitVec.ofNat 16 (s.bitField addr (g * s.logQ) s.logQ)) hg,
    BitVec.toNat_ofNat, Nat.mod_eq_of_lt hfits]

/-! ## The commands -/

/-- Settles O46: the `k` of an entry is the `B`-bit field of its linear index. -/
theorem encEncodesTheMessage : Obligations.EncEncodesTheMessage :=
  fun s _ _ _ addr _ hd hb hn1 hn2 hl ha =>
    ⟨encMat s _ _ addr, exec_of_effect (.enc ⟨hd, hb⟩ ⟨hn1, hn2⟩ hl ha), rfl, rfl, Mat.ofFn_length ..,
      fun _ _ hr hc => ⟨_, bitsValue_lt .., encMat_at_toNat hd hb (linearIndex_lt hr hc),
        fun _ ht => testBit_bitsValue _ _ _ _ ht⟩⟩

/-- Settles O49: an entry is the `D`-bit field of its linear index. -/
theorem unpkReadsTheFields : Obligations.UnpkReadsTheFields := by
  intro s md n1 n2 addr len hd hn1 hn2 hl ha
  refine ⟨unpkMat s n1 n2 addr, exec_of_effect (.unpk hd ⟨hn1, hn2⟩ hl ha), rfl, rfl, Mat.ofFn_length ..,
    fun r c hr hc => ?_⟩
  have hentry : ((unpkMat s n1 n2 addr).entry r c).toNat = s.bitField addr ((r * n2 + c) * s.logQ) s.logQ :=
    unpkMat_at_toNat hd (linearIndex_lt hr hc)
  rw [hentry]
  exact ⟨bitsValue_lt .., fun _ ht => testBit_bitsValue _ _ _ _ ht⟩

/-- Settles O47: the region holds the dense sequence of the `B`-bit values `dc` of the entries. -/
theorem decWritesTheMessage : Obligations.DecWritesTheMessage := by
  intro s ma addr len M hd hb hM hl ha
  refine ⟨(s.writeBuf addr (decBytes s M len)).count, exec_of_effect (.dec ⟨hd, hb⟩ hM hl ha), rfl,
    fun a hout => ?_, fun r c j hr hc hj => ?_⟩
  · exact State.bufByte_writeBuf_outside s addr _ a (by rwa [length_decBytes])
  · exact State.bufBit_writeBuf_packed s hl (linearIndex_lt hr hc) hj

/-- Settles O48: the region holds the dense sequence of the `D`-bit entries. -/
theorem packWritesEveryBit : Obligations.PackWritesEveryBit := by
  intro s ma addr len M hd hM hl ha
  refine ⟨(s.writeBuf addr (packBytes s M len)).count, exec_of_effect (.pack hd hM hl ha), rfl,
    fun a hout => ?_, fun r c j hr hc hj => ?_⟩
  · exact State.bufByte_writeBuf_outside s addr _ a (by rwa [length_packBytes])
  · exact State.bufBit_writeBuf_packed s hl (linearIndex_lt hr hc) hj

/-! ## Round trips (R147, R149) -/

/-- Two commands that complete count twice (R39). -/
theorem cseq_add_two (n : Word) : n + 1 + 1 = n + 2 := by rw [BitVec.add_assoc]; rfl

/-- `UNPK` in a state with `D` unchanged, of a region that holds what `PACK` wrote, builds the packed matrix (R149). -/
theorem unpkMat_writeBuf_packBytes {M : Mat} (hM : s.Fits M) (hl : 8 * len = s.logQ * M.rows * M.cols) :
    unpkMat (s.writeBuf addr (packBytes s M len)).count M.rows M.cols addr = M := by
  obtain ⟨hd, ⟨-, -, hlen⟩, hbelow⟩ := hM
  refine Mat.ext_entry (Mat.ofFn_length ..) hlen rfl rfl fun r c hr hc => BitVec.eq_of_toNat_eq ?_
  have hg := linearIndex_lt hr hc
  calc ((unpkMat (s.writeBuf addr (packBytes s M len)).count M.rows M.cols addr).entry r c).toNat
      = (s.writeBuf addr (packBytes s M len)).bitField addr ((r * M.cols + c) * s.logQ) s.logQ :=
        unpkMat_at_toNat (s := (s.writeBuf addr (packBytes s M len)).count) hd hg
    _ = (M.entry r c).toNat :=
        State.bitField_writeBuf_packed s hl hg (hbelow _ (Mat.at_mem (hlen ▸ hg)))

/-- Settles O50: by the invariant the entries fit `D` bits, so each field reads back its entry. -/
theorem unpkOfPackRestoresTheRegister : Obligations.UnpkOfPackRestoresTheRegister := by
  intro s md ma addr len M hs hM hl ha
  have hfits : s.Fits M := hs.regs ma M hM
  refine ⟨(s.writeBuf addr (packBytes s M len)).count, _, exec_of_effect (.pack hfits.1 hM hl ha),
    exec_of_effect (.unpk hfits.1 hfits.dims hl ha), ?_, rfl, cseq_add_two _⟩
  rw [State.reg_count, State.reg_setReg_same, unpkMat_writeBuf_packBytes hfits hl]

/-- Settles O51: the packed values are the fields `UNPK` read. -/
theorem packOfUnpkRestoresTheBytes : Obligations.PackOfUnpkRestoresTheBytes := by
  intro s md n1 n2 addr addr' len hd hn1 hn2 hl ha ha'
  have hreg : (s.setReg md (some (unpkMat s n1 n2 addr))).count.reg md = some (unpkMat s n1 n2 addr) :=
    State.reg_setReg_same ..
  refine ⟨(s.setReg md (some (unpkMat s n1 n2 addr))).count, _, exec_of_effect (.unpk hd ⟨hn1, hn2⟩ hl ha),
    exec_of_effect (.pack hd hreg hl ha'), fun j hj => ?_, rfl, cseq_add_two _⟩
  exact State.bufByte_writeBuf_fields _ hl (fun g hg => unpkMat_at_toNat hd hg) hj

/-- Settles O52: the values `DEC` writes are the fields `ENC` read, by `dc_ec`. -/
theorem decOfEncRestoresTheMessage : Obligations.DecOfEncRestoresTheMessage := by
  intro s md n1 n2 addr addr' len hd hb hn1 hn2 hl ha ha'
  have hreg : (s.setReg md (some (encMat s n1 n2 addr))).count.reg md = some (encMat s n1 n2 addr) :=
    State.reg_setReg_same ..
  refine ⟨(s.setReg md (some (encMat s n1 n2 addr))).count, _, exec_of_effect (.enc ⟨hd, hb⟩ ⟨hn1, hn2⟩ hl ha),
    exec_of_effect (.dec ⟨hd, hb⟩ hreg hl ha'), fun j hj => ?_, rfl, cseq_add_two _⟩
  refine State.bufByte_writeBuf_fields _ hl (fun g hg => ?_) hj
  rw [encMat_at hg]
  exact dc_ec hb.2 hd.2 (bitsValue_lt ..)

/-! ## Messages with at most one set bit (R152) -/

/-- A field of clear bits is 0. -/
theorem State.bitField_eq_zero {p : Nat} (h : ∀ k, k < w → s.bufBit addr (p + k) = false) : s.bitField addr p w = 0 :=
  bitsValue_of_testBit (Nat.two_pow_pos w) fun k hk => by rw [h k hk, Nat.zero_testBit]

/-- The fields of a message whose only set bit is bit `i` of its first field. -/
theorem State.bitField_of_single_bit {i : Nat} (hl : 8 * len = w * n1 * n2)
    (h : ∀ p, p < 8 * len → s.bufBit addr p = decide (p = i)) (hi : i < w) (hg : g < n1 * n2) :
    s.bitField addr (g * w) w = if g = 0 then 2 ^ (w - 1 - i) else 0 := by
  have hend := field_end_le hg hl
  split
  next h0 =>
    refine bitsValue_of_testBit (Nat.pow_lt_pow_right (by decide) (by omega)) fun k hk => ?_
    rw [h _ (by omega), Nat.testBit_two_pow, h0]
    exact decide_eq_decide.mpr (by omega)
  next h0 =>
    have hstart : w ≤ g * w := Nat.le_mul_of_pos_left w (Nat.pos_of_ne_zero h0)
    refine State.bitField_eq_zero fun k hk => ?_
    rw [h _ (by omega)]
    exact decide_eq_false (by omega)

/-- The first entry is the one with linear index 0 (R12). -/
theorem linearIndex_eq_zero {r c : Nat} (hc : c < n2) : r * n2 + c = 0 ↔ r = 0 ∧ c = 0 := by
  rw [Nat.add_eq_zero_iff, Nat.mul_eq_zero, or_iff_left (by omega : n2 ≠ 0)]

/-- `ENC` of a message whose only set bit is bit `i` of its first group: `2^(D-1-i)` at `(0, 0)` (R152). -/
theorem encMat_entry_of_single_bit {i r c : Nat} (hd : s.DReady) (hb : s.BReady) (hl : 8 * len = s.b.toNat * n1 * n2)
    (h : ∀ p, p < 8 * len → s.bufBit addr p = decide (p = i)) (hi : i < s.b.toNat) (hr : r < n1) (hc : c < n2) :
    ((encMat s n1 n2 addr).entry r c).toNat = if r = 0 ∧ c = 0 then 2 ^ (s.d.toNat - 1 - i) else 0 := by
  have hg := linearIndex_lt hr hc
  have hexp : s.b.toNat - 1 - i + (s.d.toNat - s.b.toNat) = s.d.toNat - 1 - i := by have := hb.2; omega
  calc ((encMat s n1 n2 addr).entry r c).toNat
      = s.bitField addr ((r * n2 + c) * s.b.toNat) s.b.toNat * 2 ^ (s.d.toNat - s.b.toNat) :=
        encMat_at_toNat hd hb hg
    _ = if r = 0 ∧ c = 0 then 2 ^ (s.d.toNat - 1 - i) else 0 := by
        rw [State.bitField_of_single_bit hl h hi hg, ite_mul, ← Nat.pow_add, hexp, Nat.zero_mul]
        exact if_congr (linearIndex_eq_zero hc) rfl rfl

/-- Settles O53: the two set bits are bit 0 and bit `B - 1` of the first group. -/
theorem leadingMessageBitIsTheHighBit : Obligations.LeadingMessageBitIsTheHighBit := by
  intro s md n1 n2 addr len hd hb hn1 hn2 hl ha
  refine ⟨encMat s n1 n2 addr, exec_of_effect (.enc ⟨hd, hb⟩ ⟨hn1, hn2⟩ hl ha), fun h r c hr hc => ?_,
    fun h r c hr hc => ?_, fun h r c hr hc => ?_⟩
  · have hg := linearIndex_lt hr hc
    have hend := field_end_le hg hl
    have hentry := encMat_at_toNat (addr := addr) hd hb hg
    rwa [State.bitField_eq_zero fun k hk => h _ (by omega), Nat.zero_mul] at hentry
  · exact encMat_entry_of_single_bit hd hb hl h hb.1 hr hc
  · have hexp : s.d.toNat - 1 - (s.b.toNat - 1) = s.d.toNat - s.b.toNat := by have := hb.1; omega
    rw [← hexp]
    exact encMat_entry_of_single_bit hd hb hl h (Nat.sub_one_lt_of_lt hb.1) hr hc

end Sys2Proof.Machine
end

section
/-! Proofs about the sampler `sample` and the command `SAMP` (R171 to R173). -/

namespace Sys2Proof.Machine

variable {d t : Nat} {xs : List (BitVec 15)} {r : Nat}

/-! ## The magnitude (R171, R172) -/

/-- The count does not depend on the order of the table (R171). -/
theorem magnitude_perm {ys : List (BitVec 15)} (h : xs.Perm ys) (t : Nat) : magnitude ys t = magnitude xs t :=
  (h.countP_eq _).symm

theorem magnitude_le_length (xs : List (BitVec 15)) (t : Nat) : magnitude xs t ≤ xs.length := List.countP_le_length

theorem magnitude_append (xs ys : List (BitVec 15)) (t : Nat) :
    magnitude (xs ++ ys) t = magnitude xs t + magnitude ys t := List.countP_append

theorem magnitude_cons (x : BitVec 15) (xs : List (BitVec 15)) (t : Nat) :
    magnitude (x :: xs) t = magnitude xs t + if x.toNat < t then 1 else 0 := by
  rw [magnitude, List.countP_cons, ← magnitude]
  simp only [decide_eq_true_eq]

/-- No threshold counts when all of them are at least `t`. -/
theorem magnitude_eq_zero (h : ∀ x ∈ xs, t ≤ x.toNat) : magnitude xs t = 0 :=
  List.countP_eq_zero.mpr fun x hx => by simpa using h x hx

/-- A last threshold of 32767 never counts (R172 (d)). -/
theorem magnitude_le_length_sub_one (ht : t ≤ 32767) (hlast : xs.getLast? = some 32767#15) :
    magnitude xs t ≤ xs.length - 1 := by
  obtain ⟨ys, rfl⟩ := List.getLast?_eq_some_iff.mp hlast
  have hmax : magnitude [32767#15] t = 0 := magnitude_eq_zero (by simpa using ht)
  rw [magnitude_append, hmax, List.length_append, List.length_singleton, Nat.add_zero, Nat.add_sub_cancel]
  exact magnitude_le_length ys t

/-- In a non-decreasing table the thresholds below `t` are the first ones (R172 (e)). -/
theorem getElem_lt_iff_lt_magnitude (hsorted : xs.Pairwise fun x y => x.toNat ≤ y.toNat) {i : Nat}
    (hi : i < xs.length) : xs[i].toNat < t ↔ i < magnitude xs t := by
  induction xs generalizing i with
  | nil => contradiction
  | cons x xs ih =>
    obtain ⟨hfirst, hrest⟩ := List.pairwise_cons.mp hsorted
    by_cases hx : x.toNat < t
    · rw [magnitude_cons, if_pos hx]
      cases i with
      | zero => simpa using hx
      | succ i => simpa using ih hrest (by simpa using hi)
    · have hall : ∀ y ∈ x :: xs, t ≤ y.toNat :=
        List.forall_mem_cons.mpr ⟨not_lt.mp hx, fun y hy => (not_lt.mp hx).trans (hfirst y hy)⟩
      rw [magnitude_eq_zero hall]
      exact iff_of_false (not_lt.mpr (hall _ (List.getElem_mem hi))) (Nat.not_lt_zero i)

/-- The magnitude for the first `k` thresholds of a table, counted by their index (R33, R34). -/
theorem magnitude_take_ofFn {n : Nat} (x : Fin n → BitVec 15) (k t : Nat) :
    magnitude ((List.ofFn x).take k) t = (Finset.univ.filter fun i => i.val < k ∧ (x i).toNat < t).card := by
  induction n generalizing k with
  | zero => rw [List.ofFn_zero, List.take_nil]; rfl
  | succ n ih =>
    cases k with
    | zero => simp [magnitude]
    | succ k =>
      rw [List.ofFn_succ, List.take_succ_cons, magnitude_cons, ih, Fin.card_filter_univ_succ']
      simp [Nat.add_comm]

/-! ## The sample (R171, R172) -/

/-- Also for `e = 0`, and for `e > q`, the sample is the residue of the signed magnitude (R171, C6). -/
theorem sample_eq_reduce (d : Nat) (xs : List (BitVec 15)) (r : Nat) :
    sample d xs r = reduce d (if r % 2 = 1 then -(magnitude xs (r / 2) : Int) else magnitude xs (r / 2)) := by
  rw [sample, Nat.shiftRight_one]
  by_cases hodd : r % 2 = 1
  · rw [if_pos hodd]
    by_cases he : magnitude xs (r / 2) = 0
    · rw [if_neg (fun h => h.2 he), he]; rfl
    · rw [if_pos ⟨hodd, he⟩]
      exact reduce_congr (Int.sub_emod_left _ _)
  · rw [if_neg hodd, if_neg (fun h => hodd h.1)]

theorem sample_toNat (hd : d ≤ 16) (xs : List (BitVec 15)) (r : Nat) :
    ((sample d xs r).toNat : Int) =
      (if r % 2 = 1 then -(magnitude xs (r / 2) : Int) else magnitude xs (r / 2)) % 2 ^ d := by
  rw [sample_eq_reduce, reduce_toNat hd, Nat.cast_pow, Nat.cast_ofNat]

/-- For `e < q` the mask changes nothing (R171). -/
theorem sample_toNat_of_lt (hd : d ≤ 16) (he : magnitude xs (r / 2) < 2 ^ d) :
    (sample d xs r).toNat =
      if r % 2 = 1 ∧ magnitude xs (r / 2) ≠ 0 then 2 ^ d - magnitude xs (r / 2) else magnitude xs (r / 2) := by
  rw [sample, Nat.shiftRight_one]
  split
  next h =>
    rw [← Nat.cast_sub he.le, reduce_natCast_toNat hd, Nat.mod_eq_of_lt (Nat.sub_lt (Nat.two_pow_pos d) (by omega))]
  next => rw [reduce_natCast_toNat hd, Nat.mod_eq_of_lt he]

/-- Zero has one representation (R172 (b)). -/
theorem sample_toNat_of_magnitude_eq_zero (hd : d ≤ 16) (h : magnitude xs (r / 2) = 0) : (sample d xs r).toNat = 0 := by
  rw [sample_toNat_of_lt hd (h ▸ Nat.two_pow_pos d), if_neg (fun h' => h'.2 h), h]

/-- R172 (a). -/
theorem sample_toNat_range (hd : d ≤ 16) (hK : xs.length < 2 ^ d) :
    (sample d xs r).toNat ≤ xs.length ∨
      2 ^ d - xs.length ≤ (sample d xs r).toNat ∧ (sample d xs r).toNat < 2 ^ d := by
  have he : magnitude xs (r / 2) ≤ xs.length := magnitude_le_length ..
  have hlt := sample_lt hd xs r
  rw [sample_toNat_of_lt hd (he.trans_lt hK)] at hlt ⊢
  split
  next => right; omega
  next => left; exact he

/-! ## The sign bit (R172 (c), (f)) -/

theorem or_one_div_two (r : Nat) : (r ||| 1) / 2 = r / 2 := by rw [Nat.or_div_two, Nat.or_zero]

theorem or_one_mod_two (r : Nat) : (r ||| 1) % 2 = 1 := Nat.or_mod_two_eq_one.mpr (.inr rfl)

/-- The mask `0xFFFE` clears bit 0 of a 16-bit value and keeps the other 15 bits. -/
theorem and_fffe_div_two (hr : r < 65536) : (r &&& 0xFFFE) / 2 = r / 2 := by
  rw [Nat.and_div_two]
  exact (Nat.and_two_pow_sub_one_eq_mod (r / 2) 15).trans (Nat.mod_eq_of_lt (by omega))

theorem and_fffe_mod_two (r : Nat) : (r &&& 0xFFFE) % 2 ≠ 1 :=
  fun h => absurd (Nat.and_mod_two_eq_one.mp h).2 (by decide)

/-- Setting the sign bit negates the sample modulo `q` (R172 (c)). -/
theorem sample_or_one_toNat (hd : d ≤ 16) (hr : r < 65536) :
    (sample d xs (r ||| 1)).toNat = (2 ^ d - (sample d xs (r &&& 0xFFFE)).toNat) &&& (2 ^ d - 1) := by
  have hpos : ((sample d xs (r &&& 0xFFFE)).toNat : Int) = magnitude xs (r / 2) % 2 ^ d := by
    rw [sample_toNat hd, if_neg (and_fffe_mod_two r), and_fffe_div_two hr]
  rw [Nat.and_two_pow_sub_one_eq_mod]
  zify [(sample_lt hd xs (r &&& 0xFFFE)).le]
  rw [hpos, sample_toNat hd, if_pos (or_one_mod_two r), or_one_div_two, Int.sub_emod_emod, Int.sub_emod_left]

/-- Settles O54: the length of the filtered table is the magnitude. -/
theorem sampleFollowsTheTable : Obligations.SampleFollowsTheTable := by
  intro d xs r _ hd
  refine ⟨fun e he => ?_, fun ys hperm => ?_⟩
  · obtain rfl : e = magnitude xs (r / 2) := he.trans List.countP_eq_length_filter.symm
    exact ⟨sample_toNat hd xs r, sample_toNat_of_lt hd⟩
  · rw [sample_eq_reduce, sample_eq_reduce, magnitude_perm hperm]

/-- Settles O55: the odd and the even `r` of (c) and (f) share one magnitude, and
`getElem_lt_iff_lt_magnitude` is (e). -/
theorem sampleHasItsProperties : Obligations.SampleHasItsProperties := by
  intro d xs _ hd
  have hzero : magnitude xs 0 = 0 := magnitude_eq_zero fun _ _ => Nat.zero_le _
  refine ⟨fun r => ⟨magnitude_le_length .., sample_toNat_range hd⟩, sample_toNat_of_magnitude_eq_zero hd hzero,
    sample_toNat_of_magnitude_eq_zero hd hzero, fun r => sample_toNat_of_magnitude_eq_zero hd,
    fun r hr _ => sample_or_one_toNat hd hr, hzero, fun t => magnitude_le_length_sub_one,
    fun t hsorted i hi => ?_, fun r => by rw [or_one_div_two]⟩
  have hfirst := getElem_lt_iff_lt_magnitude (t := t) hsorted hi
  exact ⟨hfirst.mpr, fun heq => not_lt.mp fun hlt => (hfirst.mp hlt).ne heq⟩

/-! ## The command (R173) -/

/-- The magnitude for the thresholds in use, by their index in the state's table (R33, R34). -/
theorem State.magnitude_thresholds (s : State) (t : Nat) :
    magnitude s.thresholds t =
      (Finset.univ.filter fun i : Fin 16 => i.val < s.k.toNat ∧ (s.x[i]).toNat < t).card := by
  have htable : s.x.toList = List.ofFn fun i : Fin 16 => s.x[i] :=
    List.ext_getElem (by simp) fun i _ _ => by rw [List.getElem_ofFn]; rfl
  rw [State.thresholds, htable, magnitude_take_ofFn]

/-- Settles O56: an entry is the sample of its chunk. -/
theorem sampSamplesTheChunks : Obligations.SampSamplesTheChunks := by
  intro s md n1 n2 addr len hd hk hn1 hn2 hl ha
  refine ⟨sampMat s n1 n2 addr, exec_of_effect (.samp ⟨hd, hk⟩ ⟨hn1, hn2⟩ hl ha), rfl, rfl, Mat.ofFn_length ..,
    fun r c rr e hr hc hrr he => ?_⟩
  have hchunk : s.chunk addr (r * n2 + c) = rr := hrr.symm
  rw [sampMat, Mat.ofFn_entry _ hr hc, hchunk, he, ← s.magnitude_thresholds]
  exact sample_toNat hd.2 ..

end Sys2Proof.Machine
end

section
/-! Proofs about the control commands `NOP`, `CSRW`, `MCLR` and `LDBE` (R185 to R188). -/

namespace Sys2Proof.Machine

variable {s : State} {cmd : Command}

/-! ## `NOP` (R185) -/

/-- A known opcode in a command that matches no row means a must-be-zero bit is set (R96, R99). -/
theorem decode_eq_reservedBitSet (hop : knownOpcode cmd = true)
    (hno : ∀ r ∈ opcodeTable, cmd &&& r.mask ≠ r.pattern) : decode cmd = .error .reservedBitSet := by
  have hfind : opcodeTable.find? (rowMatches cmd) = none :=
    List.find?_eq_none.mpr fun r hr => mt rowMatches_iff.mp (hno r hr)
  simp only [decode, hfind, hop, if_true]

/-- The one row with opcode `0x01` fixes every bit, so the only command with that opcode is the value 1 (R185). -/
theorem eq_one_of_match_of_opcode (hop : cmd.extractLsb' 0 8 = 0x01#8) {r : Row} (hr : r ∈ opcodeTable)
    (hmatch : cmd &&& r.mask = r.pattern) : cmd = 1#128 := by
  have nop_row : ∀ r ∈ opcodeTable, r.pattern.extractLsb' 0 8 = 0x01#8 →
      r.mask = BitVec.allOnes 128 ∧ r.pattern = 1#128 := by decide
  obtain ⟨hmask, hpattern⟩ := nop_row r hr ((opcode_of_match hr hmatch).symm.trans hop)
  rwa [hmask, hpattern, BitVec.and_allOnes] at hmatch

/-- Settles O33: any other value with the opcode of `NOP` matches no row, although its opcode is known. -/
theorem nopOnlyCounts : Obligations.NopOnlyCounts := by
  have hencode : encode .nop = 1#128 := by decide
  refine ⟨fun _ => rfl, hencode, hencode ▸ decode_encode rfl, fun cmd hop hne => ?_⟩
  have hknown : knownOpcode cmd = true := by simp [knownOpcode, cmdField, hop, opcodeTable]
  exact decode_eq_reservedBitSet hknown fun r hr hmatch => hne (eq_one_of_match_of_opcode hop hr hmatch)

/-! ## `CSRW` (R186) -/

theorem State.getElem_setX (s : State) (i j : Fin 16) (v : BitVec 15) :
    (s.setX i v).x[j] = if j = i then v else s.x[j] := by
  simp only [State.setX, Fin.getElem_fin, Vector.getElem_set, Fin.ext_iff, eq_comm]

/-- An index that `CSRW` may not write is a fault whatever the value (R186). -/
theorem exec_csrw_illegalCommand {csr : Nat} (value : Nat) (h : ¬ WritableCsr csr) :
    exec (.csrw csr value) s = .next (s.takeFault .illegalCommand) := by
  cases hc : csrAt csr with
  | none => simp only [exec, execCsrw, hc, raise]
  | some c =>
    cases c with
    | d => exact absurd (.inl (csrAt_eq_d.mp hc)) h
    | b => exact absurd (.inr (.inl (csrAt_eq_b.mp hc))) h
    | k => exact absurd (.inr (.inr (.inl (csrAt_eq_k.mp hc)))) h
    | x i =>
      have hcsr := csrAt_eq_x.mp hc
      exact absurd (.inr (.inr (.inr (by omega)))) h
    | qmask | status | errcode | errseq | cseq | mshape => simp only [exec, execCsrw, hc, raise]

/-- A writable index with a value outside its range is a fault (R186, R208). -/
theorem exec_csrw_badConfig {csr value : Nat} (hcsr : WritableCsr csr) (hv : ¬ LegalValue csr value) :
    exec (.csrw csr value) s = .next (s.takeFault .badConfig) := by
  rcases hcsr with rfl | rfl | rfl | hx
  · exact (execCsrw_d s value).trans (if_neg hv)
  · exact (execCsrw_b s value).trans (if_neg hv)
  · exact (execCsrw_k s value).trans (if_neg hv)
  · obtain ⟨i, rfl⟩ : ∃ i : Fin 16, csr = 0x0010 + i.val := ⟨⟨csr - 0x0010, by omega⟩, by simp only; omega⟩
    exact (execCsrw_x s i value).trans (if_neg (by rwa [LegalValue, if_neg (by omega)] at hv))

/-- Settles O34: a legal write has its effect, and the two faults are told apart by the index. -/
theorem csrwFollowsItsRule : Obligations.CsrwFollowsItsRule := by
  intro s csr value
  have toNat_param (h : value ≤ 16) : (BitVec.ofNat 5 value).toNat = value := Nat.mod_eq_of_lt (by omega)
  refine ⟨?_, ?_, ?_, fun i hcsr hv => ?_, fun h => ?_, fun hcsr hv => ?_, fun hlo hhi hv => ?_, fun hcsr hv => ?_⟩
  · rintro rfl h1 h16
    refine ⟨_, exec_of_effect (.csrwD ⟨h1, h16⟩), toNat_param h16, s.reg_clearRegs, rfl, ?_⟩
    rw [State.csrRead_of_csrAt _ (c := .qmask) rfl, State.csrValue, State.qmask, State.count_d, State.setD_d,
      toNat_param h16]
  · rintro rfl h1 h16
    exact ⟨_, exec_of_effect (.csrwB ⟨h1, h16⟩), toNat_param h16, rfl⟩
  · rintro rfl h1 h16
    exact ⟨_, exec_of_effect (.csrwK ⟨h1, h16⟩), toNat_param h16, rfl⟩
  · refine ⟨_, exec_of_effect (.csrwX (csrAt_eq_x.mpr hcsr) hv), ?_, fun j hj => ?_, rfl⟩
    · rw [State.count_x, State.getElem_setX, if_pos rfl]
      exact Nat.mod_eq_of_lt (by omega)
    · rw [State.count_x, State.getElem_setX, if_neg hj]
  · exact exec_csrw_illegalCommand value (by omega)
  · exact exec_csrw_badConfig (by omega) (by rw [LegalValue, if_pos hcsr]; omega)
  · exact exec_csrw_badConfig (by omega) (by rw [LegalValue, if_neg (by omega)]; omega)
  · rw [encode, assembleFields_toNat]
    omega

/-! ## `MCLR` (R187) -/

/-- Writing back what a register holds changes nothing. -/
theorem State.setReg_eq_self {i : MReg} {v : Option Mat} (h : s.reg i = v) : s.setReg i v = s := by
  subst h
  simp only [State.setReg, State.reg, Fin.getElem_fin, Vector.set_getElem_self]

theorem exec_pack_emptyRegister {ma : MReg} (addr len : Nat) (hd : s.DReady) (hm : s.reg ma = none) :
    exec (.pack ma addr len) s = .next (s.takeFault .emptyRegister) :=
  storeMat_emptyRegister s _ _ _ _ _ _ (decide_eq_true hd) hm

/-- Settles O35: `MCLR` writes `Empty` to its register, which then shows as 0 and is no source for `PACK`. -/
theorem mclrEmptiesItsRegister : Obligations.MclrEmptiesItsRegister := by
  intro s md
  have hempty : (s.setReg md none).count.reg md = none := s.reg_setReg_same md none
  refine ⟨_, exec_mclr s md, rfl, hempty, fun r hr => s.reg_setReg_ne none hr, ?_, fun h => ?_,
    fun hd addr len => exec_pack_emptyRegister addr len hd hempty, ?_⟩
  · rw [State.csrRead_of_csrAt _ (csrAt_mshape md)]
    exact State.mshape_of_empty hempty
  · rw [State.setReg_eq_self h, State.count]
  · rw [encode, assembleFields_toNat]
    omega

/-! ## `LDBE` (R188) -/

theorem ldbeMat_entry_toNat {n1 n2 r c : Nat} (addr : Nat) (hd : s.DReady) (hr : r < n1) (hc : c < n2) :
    ((ldbeMat s n1 n2 addr).entry r c).toNat = s.chunk addr (r * n2 + c) &&& (2 ^ s.d.toNat - 1) := by
  rw [ldbeMat, Mat.ofFn_entry _ hr hc]
  exact reduce_natCast_eq_and hd.2 _

/-- Settles O36: an entry is its chunk, masked. -/
theorem ldbeLoadsMaskedChunks : Obligations.LdbeLoadsMaskedChunks :=
  fun s _ n1 n2 addr _ hd hn1 hn2 hl ha =>
    ⟨ldbeMat s n1 n2 addr, exec_of_effect (.ldbe hd ⟨hn1, hn2⟩ hl ha), rfl, rfl, Mat.ofFn_length ..,
      fun _ _ => ldbeMat_entry_toNat addr hd⟩

/-! ## The frame of `CSRW` and `NOP` (R42, R204) -/

/-- Settles O60: `CSRW` takes a fault, or writes what its index names and counts; `NOP` only counts. -/
theorem controlCommandsLeaveTheRest : Obligations.ControlCommandsLeaveTheRest := by
  refine ⟨fun s t csr value h => ?_, fun s t h => ?_⟩
  · rcases exec_next_cases h with ⟨f, rfl⟩ | ⟨u, hu, rfl⟩
    · exact ⟨fun _ => rfl, rfl, rfl, fun _ => ⟨rfl, fun _ => rfl⟩, fun _ => rfl, fun _ => rfl, fun _ _ => rfl,
        .inr ⟨fun _ => rfl, rfl, rfl, rfl, rfl, rfl, rfl, rfl⟩⟩
    · have counted : u.count.fault = s.fault ∧ u.count.errcode = s.errcode ∧ u.count.errseq = s.errseq ∧
          u.count.cseq = s.cseq + 1 := by
        obtain ⟨hfault, hcode, hseq, hcseq, -⟩ := hu.kept
        exact ⟨hfault, hcode, hseq, congrArg (· + 1) hcseq⟩
      cases hu with
      | csrwD => exact ⟨fun _ => rfl, rfl, rfl, fun h0 => absurd rfl h0, fun _ => rfl, fun _ => rfl, fun _ _ => rfl,
          .inl counted⟩
      | csrwB => exact ⟨fun _ => rfl, rfl, rfl, fun _ => ⟨rfl, fun _ => rfl⟩, fun h1 => absurd rfl h1, fun _ => rfl,
          fun _ _ => rfl, .inl counted⟩
      | csrwK => exact ⟨fun _ => rfl, rfl, rfl, fun _ => ⟨rfl, fun _ => rfl⟩, fun _ => rfl, fun h2 => absurd rfl h2,
          fun _ _ => rfl, .inl counted⟩
      | @csrwX _ _ i hi =>
        refine ⟨fun _ => rfl, rfl, rfl, fun _ => ⟨rfl, fun _ => rfl⟩, fun _ => rfl, fun _ => rfl, fun j hj => ?_,
          .inl counted⟩
        have hne : j ≠ i := fun hji => hj (hji ▸ csrAt_eq_x.mp hi)
        rw [State.count_x, State.getElem_setX, if_neg hne]
  · obtain rfl : s.count = t := Host.Outcome.next.inj h
    exact ⟨fun _ => rfl, fun _ => rfl, rfl, rfl, rfl, rfl, rfl, rfl, rfl, rfl, rfl⟩

end Sys2Proof.Machine
end

section
/-! Proofs about the faults of a command: their causes (R201), their order (R210), and each fault rule (R207 to R215). -/

namespace Sys2Proof.Machine

variable {s u : State} {i : Instr} {f : EngineFault}

/-! ## Causes (R201) -/

theorem code_injective : Function.Injective EngineFault.code := by
  intro f g
  cases f <;> cases g <;> decide

/-- The fault a command reported can be read off the state it left (R203). -/
theorem State.takeFault_injective (s : State) : Function.Injective s.takeFault := fun _ _ h =>
  code_injective (congrArg State.errcode h)

/-- Of the commands that use `D` none raises `IllegalCommand` once decoded (R216). -/
theorem not_cause_illegalCommand (hu : usesD i = true) : ¬ Cause i s .illegalCommand := by
  rintro ⟨csr, value, rfl, -⟩
  cases hu

/-- For the commands that use `D` the cause of `BadConfig` is the one on use (R208). -/
theorem cause_badConfig_iff (hu : usesD i = true) : Cause i s .badConfig ↔ ¬ Configured i s :=
  or_iff_left (by rintro ⟨csr, value, rfl, -⟩; cases hu)

theorem not_cause_badConfig (hu : usesD i = true) (h : Configured i s) : ¬ Cause i s .badConfig :=
  fun hc => (cause_badConfig_iff hu).mp hc h

theorem cause_badDimension_iff {n1 n2 : Nat} (hn : newShape i = some (n1, n2)) :
    Cause i s .badDimension ↔ ¬ (DimOk n1 ∧ DimOk n2) := by
  simp only [Cause, hn, Option.some.injEq, Prod.mk.injEq]
  exact ⟨fun ⟨_, _, ⟨rfl, rfl⟩, h⟩ => h, fun h => ⟨_, _, ⟨rfl, rfl⟩, h⟩⟩

theorem cause_addressRange_iff {addr len : Nat} (hr : region i = some (addr, len)) :
    Cause i s .addressRange ↔ ¬ s.RegionOk addr len := by
  simp only [Cause, hr, Option.some.injEq, Prod.mk.injEq, State.RegionOk, Nat.not_le]
  exact ⟨fun ⟨_, _, ⟨rfl, rfl⟩, h⟩ => h, fun h => ⟨_, _, ⟨rfl, rfl⟩, h⟩⟩

/-- Only a fault listed for a command has a cause in it (R216). -/
theorem Cause.mem_faultsOf (h : Cause i s f) : f ∈ faultsOf i := by
  cases f with
  | illegalCommand => obtain ⟨csr, value, rfl, -⟩ := h; simp [faultsOf]
  | insufficientRandomness => obtain ⟨md, n1, n2, addr, len, rfl, -⟩ := h; simp [faultsOf]
  | malformedCiphertext => obtain ⟨md, n1, n2, addr, len, rfl, -⟩ := h; simp [faultsOf]
  | badConfig => cases i <;> simp_all [Cause, Configured, usesD, usesB, usesK, faultsOf]
  | emptyRegister => cases i <;> simp_all [Cause, readsReg, faultsOf]
  | badDimension => cases i <;> simp_all [Cause, newShape, faultsOf]
  | dimensionMismatch => cases i <;> simp_all [Cause, ShapesClash, faultsOf]
  | badLength => cases i <;> simp_all [Cause, WrongLength, faultsOf]
  | addressRange => cases i <;> simp_all [Cause, region, faultsOf]

/-! ## Every command makes its checks in the order of its list -/

/-- `o` is the outcome of checking the faults of a list in turn: the first one whose cause holds is raised, and with no
cause the command completes and counts (R98 steps 3 to 5). -/
def ChecksInTurn (i : Instr) (s : State) (o : Result) : List EngineFault → Prop
  | [] => ∃ t, o = .next t ∧ t.cseq = s.cseq + 1
  | f :: fs => (Cause i s f → o = .next (s.takeFault f)) ∧ (¬ Cause i s f → ChecksInTurn i s o fs)

theorem entrywise_checksInTurn (op : Nat → Mat → Mat → Mat) (md ma mb : MReg)
    (hu : usesD i = true) (hready : Configured i s ↔ s.DReady)
    (hempty : Cause i s .emptyRegister ↔ s.reg ma = none ∨ s.reg mb = none)
    (hshape : Cause i s .dimensionMismatch ↔ ShapesClash s (.madd md ma mb)) :
    ChecksInTurn i s (entrywise op md ma mb s) [.badConfig, .emptyRegister, .dimensionMismatch] := by
  have hconfig : Cause i s .badConfig ↔ ¬ s.DReady := (cause_badConfig_iff hu).trans hready.not
  refine ⟨fun h => entrywise_badConfig s op md ma mb (hconfig.mp h), fun hd => ?_⟩
  rw [hconfig, not_not] at hd
  refine ⟨fun h => entrywise_emptyRegister s op md ma mb hd (hempty.mp h), fun he => ?_⟩
  simp only [hempty, not_or, Option.ne_none_iff_exists'] at he
  obtain ⟨⟨A, ha⟩, ⟨B, hb⟩⟩ := he
  have hclash : Cause i s .dimensionMismatch ↔ ¬ A.SameShape B := by
    simp [hshape, ShapesClash, ha, hb, Decidable.imp_iff_not_or]
  refine ⟨fun h => entrywise_dimensionMismatch s op md ma mb hd ha hb (hclash.mp h), fun hs => ?_⟩
  exact ⟨_, entrywise_completes s op md ma mb hd ha hb (not_not.mp (hclash.not.mp hs)), rfl⟩

theorem execMmac_checksInTurn (md ma mb mc : MReg) :
    ChecksInTurn (.mmac md ma mb mc) s (execMmac md ma mb mc s) [.badConfig, .emptyRegister, .dimensionMismatch] := by
  have hconfig : Cause (.mmac md ma mb mc) s .badConfig ↔ ¬ s.DReady :=
    (cause_badConfig_iff rfl).trans (by simp [Configured, usesD, usesB, usesK])
  have hempty : Cause (.mmac md ma mb mc) s .emptyRegister ↔ s.reg ma = none ∨ s.reg mb = none ∨ s.reg mc = none := by
    simp [Cause, readsReg]
  refine ⟨fun h => execMmac_badConfig s md ma mb mc (hconfig.mp h), fun hd => ?_⟩
  rw [hconfig, not_not] at hd
  refine ⟨fun h => execMmac_emptyRegister s md ma mb mc hd (hempty.mp h), fun he => ?_⟩
  simp only [hempty, not_or, Option.ne_none_iff_exists'] at he
  obtain ⟨⟨A, ha⟩, ⟨B, hb⟩, ⟨E, hc⟩⟩ := he
  have hclash : Cause (.mmac md ma mb mc) s .dimensionMismatch ↔ ¬ MulShapes A B E := by
    simp [Cause, ShapesClash, ha, hb, hc, Decidable.imp_iff_not_or]
  refine ⟨fun h => execMmac_dimensionMismatch s md ma mb mc hd ha hb hc (hclash.mp h), fun hs => ?_⟩
  exact ⟨_, execMmac_completes s md ma mb mc hd ha hb hc (not_not.mp (hclash.not.mp hs)), rfl⟩

theorem loadMat_checksInTurn {ready lengthOk : Bool} {lengthFault : EngineFault} (entry : Nat → Entry) (md : MReg)
    {n1 n2 addr len : Nat} (hu : usesD i = true) (hready : Configured i s ↔ ready = true)
    (hshape : newShape i = some (n1, n2)) (hlength : Cause i s lengthFault ↔ lengthOk = false)
    (hregion : region i = some (addr, len)) :
    ChecksInTurn i s (loadMat ready lengthOk lengthFault entry md n1 n2 addr len s)
      [.badConfig, .badDimension, lengthFault, .addressRange] := by
  simp only [ChecksInTurn, cause_badConfig_iff hu, hready, cause_badDimension_iff hshape, hlength,
    cause_addressRange_iff hregion, Bool.not_eq_true, Bool.not_eq_false, not_not]
  exact ⟨loadMat_badConfig s _ _ _ _ _ _ _ _ _, fun hr => ⟨loadMat_badDimension s _ _ _ _ _ _ _ _ _ hr, fun hn =>
    ⟨loadMat_lengthFault s _ _ _ _ _ _ _ _ _ hr hn, fun hl => ⟨loadMat_addressRange s _ _ _ _ _ _ _ _ _ hr hn hl,
      fun ha => ⟨_, loadMat_completes s _ _ _ _ _ _ _ _ _ hr hn hl ha, rfl⟩⟩⟩⟩⟩

theorem storeMat_checksInTurn {ready : Bool} {w : Nat} (value : Entry → Nat) {ma : MReg} {addr len : Nat}
    (hu : usesD i = true) (hready : Configured i s ↔ ready = true) (hempty : Cause i s .emptyRegister ↔ s.reg ma = none)
    (hlength : Cause i s .badLength ↔ ∃ M, s.reg ma = some M ∧ 8 * len ≠ w * M.rows * M.cols)
    (hregion : region i = some (addr, len)) :
    ChecksInTurn i s (storeMat ready w value ma addr len s) [.badConfig, .emptyRegister, .badLength, .addressRange] := by
  have hconfig : Cause i s .badConfig ↔ ready = false := by rw [cause_badConfig_iff hu, hready, Bool.not_eq_true]
  refine ⟨fun h => storeMat_badConfig s _ _ _ _ _ _ (hconfig.mp h), fun hr => ?_⟩
  rw [hconfig, Bool.not_eq_false] at hr
  refine ⟨fun h => storeMat_emptyRegister s _ _ _ _ _ _ hr (hempty.mp h), fun he => ?_⟩
  obtain ⟨M, hm⟩ := Option.ne_none_iff_exists'.mp (hempty.not.mp he)
  have hwrong : Cause i s .badLength ↔ 8 * len ≠ w * M.rows * M.cols := by simp [hlength, hm]
  refine ⟨fun h => storeMat_badLength s _ _ _ _ _ _ hr hm (hwrong.mp h), fun hl => ?_⟩
  rw [hwrong, not_not] at hl
  refine ⟨fun h => storeMat_addressRange s _ _ _ _ _ _ hr hm hl ((cause_addressRange_iff hregion).mp h), fun ha => ?_⟩
  rw [cause_addressRange_iff hregion, not_not] at ha
  exact ⟨_, storeMat_completes s _ _ _ _ _ _ hr hm hl ha, rfl⟩

/-- A writable index with a legal value is written (R186). -/
theorem exists_effect_csrw {csr value : Nat} (hcsr : WritableCsr csr) (hv : LegalValue csr value) :
    ∃ u, Effect s (.csrw csr value) u := by
  rcases hcsr with rfl | rfl | rfl | hx
  · exact ⟨_, .csrwD hv⟩
  · exact ⟨_, .csrwB hv⟩
  · exact ⟨_, .csrwK hv⟩
  · obtain ⟨j, rfl⟩ : ∃ j : Fin 16, csr = 0x0010 + j.val := ⟨⟨csr - 0x0010, by omega⟩, by simp only; omega⟩
    rw [LegalValue, if_neg (by omega)] at hv
    exact ⟨_, .csrwX (csrAt_x j) hv⟩

/-- A command with its effect completes: the fault registers stay and `CSEQ` advances (R204, R39). -/
theorem Effect.completes (h : Effect s i u) : ∃ t, exec i s = .next t ∧ t.fault = s.fault ∧ t.errcode = s.errcode ∧
    t.errseq = s.errseq ∧ t.cseq = s.cseq + 1 := by
  obtain ⟨hfault, hcode, hseq, hcseq, -⟩ := h.kept
  exact ⟨u.count, exec_of_effect h, hfault, hcode, hseq, congrArg (· + 1) hcseq⟩

theorem exec_csrw_checksInTurn (csr value : Nat) :
    ChecksInTurn (.csrw csr value) s (exec (.csrw csr value) s) [.illegalCommand, .badConfig] := by
  have hillegal : Cause (.csrw csr value) s .illegalCommand ↔ ¬ WritableCsr csr := by simp [Cause]
  have hconfig : Cause (.csrw csr value) s .badConfig ↔ WritableCsr csr ∧ ¬ LegalValue csr value := by
    simp [Cause, Configured, usesD, usesB, usesK]
  refine ⟨fun h => exec_csrw_illegalCommand value (hillegal.mp h), fun hw => ?_⟩
  rw [hillegal, not_not] at hw
  refine ⟨fun h => exec_csrw_badConfig hw (hconfig.mp h).2, fun hv => ?_⟩
  obtain ⟨u, hu⟩ := exists_effect_csrw (s := s) hw (not_not.mp fun hv' => hv (hconfig.mpr ⟨hw, hv'⟩))
  obtain ⟨t, ht, -, -, -, hcseq⟩ := hu.completes
  exact ⟨t, ht, hcseq⟩

/-- The list of a command gives its faults in the order in which it checks them (R216). -/
theorem exec_checksInTurn (i : Instr) (s : State) : ChecksInTurn i s (exec i s) (faultsOf i) := by
  cases i with
  | nop | mclr => exact ⟨_, rfl, rfl⟩
  | csrw csr value => exact exec_csrw_checksInTurn csr value
  | madd md ma mb | msub md ma mb =>
    exact entrywise_checksInTurn _ md ma mb rfl (by simp [Configured, usesD, usesB, usesK]) (by simp [Cause, readsReg])
      Iff.rfl
  | mmac md ma mb mc => exact execMmac_checksInTurn md ma mb mc
  | enc =>
    unfold exec execEnc
    exact loadMat_checksInTurn _ _ rfl (by simp [Configured, usesD, usesB, usesK]) rfl (by simp [Cause, WrongLength]) rfl
  | unpk =>
    unfold exec execUnpk
    exact loadMat_checksInTurn _ _ rfl (by simp [Configured, usesD, usesB, usesK]) rfl (by simp [Cause, State.logQ]) rfl
  | ldbe =>
    unfold exec execLdbe
    exact loadMat_checksInTurn _ _ rfl (by simp [Configured, usesD, usesB, usesK]) rfl (by simp [Cause, WrongLength]) rfl
  | samp =>
    unfold exec execSamp
    exact loadMat_checksInTurn _ _ rfl (by simp [Configured, usesD, usesB, usesK]) rfl (by simp [Cause]) rfl
  | dec =>
    unfold exec execDec
    exact storeMat_checksInTurn _ rfl (by simp [Configured, usesD, usesB, usesK]) (by simp [Cause, readsReg]) Iff.rfl rfl
  | pack =>
    unfold exec execPack
    exact storeMat_checksInTurn _ rfl (by simp [Configured, usesD, usesB, usesK]) (by simp [Cause, readsReg]) Iff.rfl rfl

/-! ## The first cause is the fault reported (R210) -/

theorem faultsOf_sorted (i : Instr) : (faultsOf i).Pairwise fun f g => priority f < priority g := by
  cases i <;> simp only [faultsOf] <;> decide

/-- Checks made in the order of priority raise a fault exactly when its cause is the first one of the list. -/
theorem ChecksInTurn.eq_takeFault_iff {o : Result} {fs : List EngineFault} (h : ChecksInTurn i s o fs)
    (hsorted : fs.Pairwise fun f g => priority f < priority g) :
    o = .next (s.takeFault f) ↔
      f ∈ fs ∧ Cause i s f ∧ ∀ g ∈ fs, priority g < priority f → ¬ Cause i s g := by
  induction fs with
  | nil =>
    obtain ⟨t, rfl, hcseq⟩ := h
    refine ⟨fun ht => ?_, fun ⟨hmem, _⟩ => absurd hmem List.not_mem_nil⟩
    obtain rfl : t = s.takeFault f := Host.Outcome.next.inj ht
    simp at hcseq
  | cons g fs ih =>
    obtain ⟨hlater, hsorted⟩ := List.pairwise_cons.mp hsorted
    by_cases hg : Cause i s g
    · have hraised := h.1 hg
      constructor
      · intro ho
        obtain rfl : g = f := s.takeFault_injective (Host.Outcome.next.inj (hraised.symm.trans ho))
        refine ⟨List.mem_cons_self, hg, fun k hk hlt => ?_⟩
        rcases List.mem_cons.mp hk with rfl | hk
        · exact absurd hlt (Nat.lt_irrefl _)
        · exact absurd hlt (Nat.lt_asymm (hlater k hk))
      · rintro ⟨hmem, -, hfirst⟩
        rcases List.mem_cons.mp hmem with rfl | hmem
        · exact hraised
        · exact absurd hg (hfirst g List.mem_cons_self (hlater f hmem))
    · rw [ih (h.2 hg) hsorted]
      constructor
      · rintro ⟨hmem, hf, hfirst⟩
        refine ⟨List.mem_cons_of_mem _ hmem, hf, fun k hk hlt => ?_⟩
        rcases List.mem_cons.mp hk with rfl | hk
        · exact hg
        · exact hfirst k hk hlt
      · rintro ⟨hmem, hf, hfirst⟩
        have hne : f ≠ g := by rintro rfl; exact hg hf
        exact ⟨List.mem_of_ne_of_mem hne hmem, hf, fun k hk => hfirst k (List.mem_cons_of_mem _ hk)⟩

/-- The fault a command reports is the first cause among all faults, since only listed ones have a cause (R210, R216). -/
theorem exec_eq_takeFault_iff :
    exec i s = .next (s.takeFault f) ↔ Cause i s f ∧ ∀ g, priority g < priority f → ¬ Cause i s g := by
  rw [(exec_checksInTurn i s).eq_takeFault_iff (faultsOf_sorted i)]
  exact ⟨fun ⟨_, hf, hfirst⟩ => ⟨hf, fun g hlt hg => hfirst g hg.mem_faultsOf hlt hg⟩,
    fun ⟨hf, hfirst⟩ => ⟨hf.mem_faultsOf, hf, fun g _ => hfirst g⟩⟩

/-- Settles O18: the checks are made in the order of priority. -/
theorem reportedFaultIsTheFirstInPriority : Obligations.ReportedFaultIsTheFirstInPriority := by
  refine ⟨fun _ _ _ => exec_eq_takeFault_iff, fun d n1 n2 hd h1 h2 => ?_⟩
  have hle : d * n1 * n2 ≤ 16 * 1344 * 1344 := Nat.mul_le_mul (Nat.mul_le_mul hd h1.2) h2.2
  exact ⟨hle, Nat.lt_of_le_of_lt hle (by decide)⟩

/-- Settles O17: a fault of the list leaves `takeFault`, and an effect completes. -/
theorem faultsArePreciseAndListed : Obligations.FaultsArePreciseAndListed := by
  intro i s
  rcases exec_cases s i with hraises | ⟨u, hu, -⟩
  · exact .inl hraises
  · exact .inr hu.completes

/-! ## The fault rules (R207 to R215) -/

theorem usesD_of_usesB (h : usesB i = true) : usesD i = true := by
  cases i with
  | enc | dec => rfl
  | nop | csrw | mclr | madd | msub | mmac | pack | unpk | ldbe | samp => cases h

theorem usesD_of_usesK (h : usesK i = true) : usesD i = true := by
  cases i with
  | samp => rfl
  | nop | csrw | mclr | madd | msub | mmac | enc | dec | pack | unpk | ldbe => cases h

theorem usesD_of_mem_readsReg {r : MReg} (h : r ∈ readsReg i) : usesD i = true := by
  cases i with
  | madd | msub | mmac | dec | pack => rfl
  | nop | csrw | mclr | enc | unpk | ldbe | samp => exact absurd h List.not_mem_nil

/-- The commands that create a shape are those of format L, which read no register (R92). -/
theorem usesD_of_newShape {n1 n2 : Nat} (h : newShape i = some (n1, n2)) : usesD i = true ∧ readsReg i = [] := by
  cases i with
  | enc | unpk | ldbe | samp => exact ⟨rfl, rfl⟩
  | nop | csrw | mclr | madd | msub | mmac | dec | pack => cases h

/-- `BadConfig` comes before any other fault of a command that uses `D` (R208, R210). -/
theorem exec_badConfig (hu : usesD i = true) (h : ¬ Configured i s) : exec i s = .next (s.takeFault .badConfig) := by
  refine exec_eq_takeFault_iff.mpr ⟨(cause_badConfig_iff hu).mpr h, fun g hlt => ?_⟩
  cases g with
  | illegalCommand => exact not_cause_illegalCommand hu
  | _ => exact absurd hlt (by decide)

/-- With `D = 0` no register holds a matrix (R26, R31). -/
theorem State.Inv.reg_of_d_zero (h : s.Inv) (hd : s.d = 0#5) (r : MReg) : s.reg r = none := by
  refine Option.eq_none_iff_forall_ne_some.mpr fun M hM => ?_
  obtain ⟨⟨hpos, -⟩, -⟩ := h.regs r M hM
  rw [hd] at hpos
  exact absurd hpos (by decide)

/-- Settles O25: on use by `exec_badConfig`, on write by `exec_csrw_badConfig`. -/
theorem unusableConfigurationIsBadConfig : Obligations.UnusableConfigurationIsBadConfig := by
  have on_use (i : Instr) (s : State) (h : usesD i = true ∧ ¬ s.DReady ∨
      usesB i = true ∧ (s.b.toNat = 0 ∨ s.d.toNat < s.b.toNat) ∨ usesK i = true ∧ s.k.toNat = 0) :
      exec i s = .next (s.takeFault .badConfig) := by
    rcases h with ⟨hu, hd⟩ | ⟨hu, hb⟩ | ⟨hu, hk⟩
    · exact exec_badConfig hu fun hc => hd (hc.1 hu)
    · exact exec_badConfig (usesD_of_usesB hu) fun ⟨_, hready, _⟩ => by have := hready hu; omega
    · exact exec_badConfig (usesD_of_usesK hu) fun ⟨_, _, hready⟩ => by have := hready hu; omega
  refine ⟨on_use, fun s csr value hcsr hv => ?_, fun s i value hv => ?_, fun s i hs hd => hs.reg_of_d_zero hd i,
    on_use _ _ (.inl ⟨rfl, by decide⟩)⟩
  · exact exec_csrw_badConfig (by omega) (by rw [LegalValue, if_pos hcsr]; omega)
  · exact exec_csrw_badConfig (by omega) (by rw [LegalValue, if_neg (by omega)]; omega)

/-- Settles O26: of the faults earlier than `EmptyRegister` neither has a cause. -/
theorem emptySourceIsEmptyRegister : Obligations.EmptySourceIsEmptyRegister := by
  intro i s r hconfigured hr hempty
  have hu := usesD_of_mem_readsReg hr
  refine exec_eq_takeFault_iff.mpr ⟨⟨r, hr, hempty⟩, fun g hlt => ?_⟩
  cases g with
  | illegalCommand => exact not_cause_illegalCommand hu
  | badConfig => exact not_cause_badConfig hu hconfigured
  | _ => exact absurd hlt (by decide)

/-- Settles O27: of the faults earlier than `BadDimension` none has a cause. -/
theorem illegalDimensionIsBadDimension : Obligations.IllegalDimensionIsBadDimension := by
  intro i s n1 n2 hshape hconfigured hn
  obtain ⟨hu, hnone⟩ := usesD_of_newShape hshape
  refine exec_eq_takeFault_iff.mpr ⟨(cause_badDimension_iff hshape).mpr (by omega), fun g hlt => ?_⟩
  cases g with
  | illegalCommand => exact not_cause_illegalCommand hu
  | badConfig => exact not_cause_badConfig hu hconfigured
  | emptyRegister => rintro ⟨r, hr, -⟩; exact absurd (hnone ▸ hr) List.not_mem_nil
  | _ => exact absurd hlt (by decide)

/-- Settles O28 with the two operand forms of the arithmetic commands. -/
theorem incompatibleShapesAreDimensionMismatch : Obligations.IncompatibleShapesAreDimensionMismatch := by
  intro s md ma mb mc A B E hd1 hd16 ha hb hc
  refine ⟨fun hs => ?_, fun hs => ?_⟩
  · have hs : ¬ A.SameShape B := not_and_or.mpr hs
    exact ⟨entrywise_dimensionMismatch s matAdd md ma mb ⟨hd1, hd16⟩ ha hb hs,
      entrywise_dimensionMismatch s matSub md ma mb ⟨hd1, hd16⟩ ha hb hs⟩
  · exact execMmac_dimensionMismatch s md ma mb mc ⟨hd1, hd16⟩ ha hb hc (by rw [MulShapes]; tauto)

/-- Settles O29: a longer buffer passes the length check of `SAMP`. -/
theorem shortSamplerBufferIsInsufficientRandomness : Obligations.ShortSamplerBufferIsInsufficientRandomness := by
  intro s md n1 n2 addr len hd hk hn1 hn2
  refine ⟨fun hl => ?_, fun hl ha => ?_⟩
  · unfold exec execSamp
    exact loadMat_lengthFault s _ _ _ _ _ _ _ _ _ (decide_eq_true ⟨hd, hk⟩) ⟨hn1, hn2⟩
      (decide_eq_false (Nat.not_le.mpr hl))
  · obtain ⟨t, ht, hfault, -, -, hcseq⟩ := (Effect.samp (md := md) ⟨hd, hk⟩ ⟨hn1, hn2⟩ hl ha).completes
    exact ⟨t, ht, hfault, hcseq⟩

/-- Settles O30: no check of `UNPK` reads a byte. -/
theorem wrongPackedLengthIsMalformedCiphertext : Obligations.WrongPackedLengthIsMalformedCiphertext := by
  intro s md n1 n2 addr len hd hn1 hn2
  refine ⟨fun hl => ?_, fun hl ha => ?_⟩
  · unfold exec execUnpk
    exact loadMat_lengthFault s _ _ _ _ _ _ _ _ _ (decide_eq_true hd) ⟨hn1, hn2⟩ (beq_eq_false_iff_ne.mpr hl)
  · obtain ⟨t, ht, hfault, -, -, hcseq⟩ := (Effect.unpk (md := md) hd ⟨hn1, hn2⟩ hl ha).completes
    exact ⟨t, ht, hfault, hcseq⟩

/-- Settles O31 with the length checks of the formats L and S. -/
theorem inexactLengthIsBadLength : Obligations.InexactLengthIsBadLength := by
  intro s r n1 n2 addr len M hd hn1 hn2 hm
  refine ⟨fun md hb hl => ?_, fun hb hl => ?_, fun hl => ?_, fun md hl => ?_⟩
  · unfold exec execEnc
    exact loadMat_lengthFault s _ _ _ _ _ _ _ _ _ (decide_eq_true ⟨hd, hb⟩) ⟨hn1, hn2⟩ (beq_eq_false_iff_ne.mpr hl)
  · unfold exec execDec
    exact storeMat_badLength s _ _ _ _ _ _ (decide_eq_true ⟨hd, hb⟩) hm hl
  · unfold exec execPack
    exact storeMat_badLength s _ _ _ _ _ _ (decide_eq_true hd) hm hl
  · unfold exec execLdbe
    exact loadMat_lengthFault s _ _ _ _ _ _ _ _ _ (decide_eq_true hd) ⟨hn1, hn2⟩ (beq_eq_false_iff_ne.mpr hl)

/-! ## A length of 0 (R209) -/

/-- Values of at least one bit each fill at least one byte when there is an entry (R212). -/
theorem len_pos {w n1 n2 len : Nat} (hw : 1 ≤ w) (h1 : DimOk n1) (h2 : DimOk n2) (hl : w * n1 * n2 ≤ 8 * len) :
    0 < len := by
  have hpos : 0 < w * n1 * n2 := Nat.mul_pos (Nat.mul_pos hw h1.1) h2.1
  omega

/-- A buffer command whose checks before the one of the region pass has a length above 0 (R209). -/
theorem len_pos_of_not_cause {addr len : Nat} (hs : s.Inv) (hregion : region i = some (addr, len))
    (h : ∀ f, priority f < priority .addressRange → ¬ Cause i s f) : 0 < len := by
  have hconfigured : Configured i s := not_not.mp fun hc => h .badConfig (by decide) (.inl hc)
  have hdims {n1 n2 : Nat} (hn : newShape i = some (n1, n2)) : DimOk n1 ∧ DimOk n2 :=
    not_not.mp ((cause_badDimension_iff hn).not.mp (h .badDimension (by decide)))
  have hsource {r : MReg} (hr : r ∈ readsReg i) : ∃ M, s.reg r = some M ∧ DimOk M.rows ∧ DimOk M.cols := by
    obtain ⟨M, hM⟩ := Option.ne_none_iff_exists'.mp fun he => h .emptyRegister (by decide) ⟨r, hr, he⟩
    exact ⟨M, hM, State.Fits.dims (hs.regs r M hM)⟩
  have hlength : ¬ WrongLength s i := h .badLength (by decide)
  obtain ⟨hD, hB, -⟩ := hconfigured
  cases i with
  | nop | csrw | mclr | madd | msub | mmac => cases hregion
  | enc =>
    cases hregion
    obtain ⟨h1, h2⟩ := hdims rfl
    exact len_pos (hB rfl).1 h1 h2 (not_not.mp hlength).ge
  | dec =>
    cases hregion
    obtain ⟨M, hM, h1, h2⟩ := hsource List.mem_cons_self
    exact len_pos (hB rfl).1 h1 h2 (not_not.mp fun hl => hlength ⟨M, hM, fun he => hl he.ge⟩)
  | pack =>
    cases hregion
    obtain ⟨M, hM, h1, h2⟩ := hsource List.mem_cons_self
    exact len_pos (hD rfl).1 h1 h2 (not_not.mp fun hl => hlength ⟨M, hM, fun he => hl he.ge⟩)
  | unpk =>
    cases hregion
    obtain ⟨h1, h2⟩ := hdims rfl
    exact len_pos (hD rfl).1 h1 h2
      (not_not.mp fun hl => h .malformedCiphertext (by decide) ⟨_, _, _, _, _, rfl, fun he => hl he.ge⟩)
  | ldbe =>
    cases hregion
    obtain ⟨h1, h2⟩ := hdims rfl
    exact len_pos one_le_two h1 h2 (Nat.le_trans (not_not.mp hlength).ge (by omega))
  | samp =>
    cases hregion
    obtain ⟨h1, h2⟩ := hdims rfl
    have hl := not_not.mp fun hl => h .insufficientRandomness (by decide) ⟨_, _, _, _, _, rfl, Nat.not_le.mp hl⟩
    exact len_pos one_le_two h1 h2 (Nat.le_trans hl (by omega))

/-- Settles O32: `AddressRange` is the last of the order. -/
theorem regionOutsideBufIsAddressRange : Obligations.RegionOutsideBufIsAddressRange :=
  fun _ _ addr len hregion hout hfirst =>
    ⟨exec_eq_takeFault_iff.mpr ⟨⟨addr, len, hregion, hout⟩, hfirst⟩,
      fun hs => len_pos_of_not_cause hs hregion hfirst⟩

end Sys2Proof.Machine
end

section
/-! Proofs about fault entry and the faulted engine (R203, R205, R206). -/

namespace Sys2Proof.Machine

variable {s : State} {rest : List Transaction}

/-- Settles O16: `raise` is `takeFault`, and the codes are the numbers of the table. -/
theorem raiseWritesTheFaultRegistersOnly : Obligations.RaiseWritesTheFaultRegistersOnly :=
  ⟨fun _ _ => rfl, rfl, rfl, rfl, rfl, rfl, rfl, rfl, rfl, rfl⟩

/-- While `FAULT = 1` an issued value is taken off the port and discarded (R205). -/
theorem step_issue_of_fault {cmd : Command} (hf : s.fault = true) (hp : s.port = .issue cmd :: rest) :
    step s = .next (s.accept rest) :=
  (step_issue hp).trans (if_pos hf)

/-- Settles O6: the host's accesses to `BUF` are those of O4. -/
theorem faultedEngineDiscardsCommands : Obligations.FaultedEngineDiscardsCommands := by
  intro s rest hf
  refine ⟨fun _ => step_issue_of_fault hf, fun _ => step_transact, fun a hp ha => ?_, fun a v hp ha => ?_⟩
  · exact ((bufTransactionsTouchOneByteOrAreRefused s a 0 rest).2 hp).1 ha
  · obtain ⟨t, hstep, ht, hbyte, -⟩ := ((bufTransactionsTouchOneByteOrAreRefused s a v rest).1 hp).1 ha
    exact ⟨t, hstep, hbyte, ht ▸ hf, by rw [ht], by rw [ht]⟩

/-- Settles O15: with `FAULT = 1` a step without a reset takes the transaction, writes a byte of `BUF` or answers. -/
theorem faultIsStickyUntilReset : Obligations.FaultIsStickyUntilReset := by
  intro s t hf hno hstep
  rcases step_cases hstep with ⟨-, rfl⟩ | ⟨tr, rest, hp, hissue | ⟨a, v, -, -, rfl⟩ | ⟨hreset, -⟩ | ⟨-, -, r, rfl⟩⟩
  · exact ⟨hf, rfl, rfl, rfl, rfl, rfl, rfl, rfl, rfl⟩
  · obtain ⟨cmd, rfl, -⟩ := hissue
    obtain rfl : s.accept rest = t := Host.Outcome.next.inj ((step_issue_of_fault hf hp).symm.trans hstep)
    exact ⟨hf, rfl, rfl, rfl, rfl, rfl, rfl, rfl, rfl⟩
  · exact ⟨hf, rfl, rfl, rfl, rfl, rfl, rfl, rfl, rfl⟩
  · have hnot := hno tr (by rw [hp]; rfl)
    exact absurd (hreset.symm.trans hnot) Bool.noConfusion
  · exact ⟨hf, rfl, rfl, rfl, rfl, rfl, rfl, rfl, rfl⟩

end Sys2Proof.Machine
end

section
/-! Proofs about hazards and runs: every step answers (R244), control is independent of data (R240), `BUF` changes by
stores and `BufWrite` only (R232), and the count of a run (R245). -/

namespace Sys2Proof.Machine

/-! ## Control is independent of data (R240) -/

section
variable {s t u : State} {i : Instr} {f : EngineFault}

namespace SameControl

theorem symm (h : SameControl s t) : SameControl t s :=
  ⟨h.d.symm, h.b.symm, h.k.symm, fun j => (h.shape j).symm, h.params.symm, h.fault.symm, h.errcode.symm, h.errseq.symm,
    h.cseq.symm⟩

/-! What the checks read is the same in both states. -/

theorem dReady (h : SameControl s t) (hd : s.DReady) : t.DReady := by
  rwa [State.DReady, ← h.d]

theorem bReady (h : SameControl s t) (hb : s.BReady) : t.BReady := by
  rwa [State.BReady, ← h.b, ← h.d]

theorem kReady (h : SameControl s t) (hk : s.KReady) : t.KReady := by
  rwa [State.KReady, ← h.k]

theorem logQ (h : SameControl s t) : s.logQ = t.logQ := congrArg BitVec.toNat h.d

theorem regionOk {addr len : Nat} (h : SameControl s t) (ha : s.RegionOk addr len) : t.RegionOk addr len := by
  rwa [State.RegionOk, ← h.params]

theorem configured (h : SameControl s t) (hc : Configured i s) : Configured i t :=
  ⟨fun hu => h.dReady (hc.1 hu), fun hu => h.bReady (hc.2.1 hu), fun hu => h.kReady (hc.2.2 hu)⟩

/-- A register that holds a matrix in one state holds one of the same shape in the other. -/
theorem exists_reg {r : MReg} {A : Mat} (h : SameControl s t) (hA : s.reg r = some A) :
    ∃ A', t.reg r = some A' ∧ A'.rows = A.rows ∧ A'.cols = A.cols := by
  have hshape : t.shape r = some (A.rows, A.cols) := by rw [← h.shape, State.shape, hA]; rfl
  obtain ⟨A', hA', hdims⟩ := Option.map_eq_some_iff.mp hshape
  exact ⟨A', hA', (Prod.mk.inj hdims).1, (Prod.mk.inj hdims).2⟩

theorem reg_eq_none {r : MReg} (h : SameControl s t) (hr : s.reg r = none) : t.reg r = none :=
  Option.eq_none_iff_forall_ne_some.mpr fun A hA => by
    obtain ⟨A', hA', -⟩ := h.symm.exists_reg hA
    exact absurd (hr.symm.trans hA') (Option.some_ne_none A').symm

/-- The sources of an entry-wise command fit in one state as they do in the other (R122). -/
theorem exists_sameShape {ma mb : MReg} {A B : Mat} (h : SameControl s t) (hA : s.reg ma = some A)
    (hB : s.reg mb = some B) (hs : A.SameShape B) :
    ∃ A' B', t.reg ma = some A' ∧ t.reg mb = some B' ∧ A'.SameShape B' ∧ A'.rows = A.rows ∧ A'.cols = A.cols := by
  obtain ⟨A', hA', hAr, hAc⟩ := h.exists_reg hA
  obtain ⟨B', hB', hBr, hBc⟩ := h.exists_reg hB
  exact ⟨A', B', hA', hB', by rwa [Mat.SameShape, hAr, hAc, hBr, hBc], hAr, hAc⟩

/-! Updates of both states that agree on control. -/

theorem setReg (h : SameControl s t) (md : MReg) {v w : Option Mat}
    (hvw : v.map (fun M => (M.rows, M.cols)) = w.map fun M => (M.rows, M.cols)) :
    SameControl (s.setReg md v) (t.setReg md w) :=
  { h with
    shape := fun j => by
      rw [State.shape, State.shape, State.reg_setReg, State.reg_setReg]
      split
      · exact hvw
      · exact h.shape j }

/-- A new matrix of the same dimensions may have any entries on either side. -/
theorem setReg_ofFn (h : SameControl s t) (md : MReg) (n1 n2 : Nat) (f g : Nat → Nat → Entry) :
    SameControl (s.setReg md (some (Mat.ofFn n1 n2 f))) (t.setReg md (some (Mat.ofFn n1 n2 g))) := h.setReg md rfl

theorem clearRegs_setD (h : SameControl s t) (v : BitVec 5) : SameControl (s.clearRegs.setD v) (t.clearRegs.setD v) :=
  { h with
    d := rfl
    shape := fun _ => by simp [State.shape] }

theorem setB (h : SameControl s t) (v : BitVec 5) : SameControl (s.setB v) (t.setB v) := { h with b := rfl }

theorem setK (h : SameControl s t) (v : BitVec 5) : SameControl (s.setK v) (t.setK v) := { h with k := rfl }

theorem setX (h : SameControl s t) (j : Fin 16) (v : BitVec 15) : SameControl (s.setX j v) (t.setX j v) := { h with }

/-- Any bytes may be written on either side. -/
theorem writeBuf (h : SameControl s t) (addr : Nat) (bytes bytes' : List Byte) :
    SameControl (s.writeBuf addr bytes) (t.writeBuf addr bytes') := { h with }

theorem count (h : SameControl s t) : SameControl s.count t.count := { h with cseq := congrArg (· + 1) h.cseq }

theorem takeFault (h : SameControl s t) (f : EngineFault) : SameControl (s.takeFault f) (t.takeFault f) :=
  { h with
    fault := rfl
    errcode := rfl
    errseq := h.cseq }

/-! The causes of a fault are causes in the other state, so that the same fault comes first. -/

theorem shapesClash (h : SameControl s t) (hc : ShapesClash s i) : ShapesClash t i := by
  cases i with
  | madd | msub =>
    obtain ⟨A, B, hA, hB, hne⟩ := hc
    obtain ⟨A', hA', hAr, hAc⟩ := h.exists_reg hA
    obtain ⟨B', hB', hBr, hBc⟩ := h.exists_reg hB
    exact ⟨A', B', hA', hB', by rwa [hAr, hAc, hBr, hBc]⟩
  | mmac =>
    obtain ⟨A, B, E, hA, hB, hE, hne⟩ := hc
    obtain ⟨A', hA', hAr, hAc⟩ := h.exists_reg hA
    obtain ⟨B', hB', hBr, hBc⟩ := h.exists_reg hB
    obtain ⟨E', hE', hEr, hEc⟩ := h.exists_reg hE
    exact ⟨A', B', E', hA', hB', hE', by rwa [hAr, hAc, hBr, hBc, hEr, hEc]⟩
  | nop | csrw | mclr | enc | dec | pack | unpk | ldbe | samp => exact hc

theorem wrongLength (h : SameControl s t) (hc : WrongLength s i) : WrongLength t i := by
  cases i with
  | enc => rwa [WrongLength, ← h.b]
  | dec =>
    obtain ⟨M, hM, hne⟩ := hc
    obtain ⟨M', hM', hr, hc⟩ := h.exists_reg hM
    exact ⟨M', hM', by rwa [← h.b, hr, hc]⟩
  | pack =>
    obtain ⟨M, hM, hne⟩ := hc
    obtain ⟨M', hM', hr, hc⟩ := h.exists_reg hM
    exact ⟨M', hM', by rwa [← h.d, hr, hc]⟩
  | nop | csrw | mclr | madd | msub | mmac | unpk | ldbe | samp => exact hc

theorem cause (h : SameControl s t) (hc : Cause i s f) : Cause i t f := by
  cases f with
  | illegalCommand | badDimension | insufficientRandomness => exact hc
  | badConfig => exact hc.imp_left fun hn ht => hn (h.symm.configured ht)
  | emptyRegister => obtain ⟨r, hr, hnone⟩ := hc; exact ⟨r, hr, h.reg_eq_none hnone⟩
  | dimensionMismatch => exact h.shapesClash hc
  | malformedCiphertext => rwa [Cause, ← h.d]
  | badLength => exact h.wrongLength hc
  | addressRange => rwa [Cause, ← h.params]

/-- A fault reported in one state is the first cause in the other too (R217, R240). -/
theorem exec_takeFault (h : SameControl s t) (hs : exec i s = .next (s.takeFault f)) :
    exec i t = .next (t.takeFault f) := by
  obtain ⟨hcause, hfirst⟩ := exec_eq_takeFault_iff.mp hs
  exact exec_eq_takeFault_iff.mpr ⟨h.cause hcause, fun g hlt hg => hfirst g hlt (h.symm.cause hg)⟩

end SameControl

/-- A command that has its effect in one state has it in the other, and the effects agree on control (R240). -/
theorem Effect.exists_sameControl (hu : Effect s i u) (h : SameControl s t) : ∃ v, Effect t i v ∧ SameControl u v := by
  cases hu with
  | nop => exact ⟨_, .nop, h⟩
  | csrwD hv => exact ⟨_, .csrwD hv, h.clearRegs_setD _⟩
  | csrwB hv => exact ⟨_, .csrwB hv, h.setB _⟩
  | csrwK hv => exact ⟨_, .csrwK hv, h.setK _⟩
  | csrwX hi hv => exact ⟨_, .csrwX hi hv, h.setX _ _⟩
  | mclr => exact ⟨_, .mclr, h.setReg _ rfl⟩
  | madd hd hA hB hs =>
    obtain ⟨A', B', hA', hB', hs', hr, hc⟩ := h.exists_sameShape hA hB hs
    exact ⟨_, .madd (h.dReady hd) hA' hB' hs', h.setReg _ (by simp [matAdd, hr, hc])⟩
  | msub hd hA hB hs =>
    obtain ⟨A', B', hA', hB', hs', hr, hc⟩ := h.exists_sameShape hA hB hs
    exact ⟨_, .msub (h.dReady hd) hA' hB' hs', h.setReg _ (by simp [matSub, hr, hc])⟩
  | mmac hd hA hB hE hs =>
    obtain ⟨A', hA', hAr, hAc⟩ := h.exists_reg hA
    obtain ⟨B', hB', hBr, hBc⟩ := h.exists_reg hB
    obtain ⟨E', hE', hEr, hEc⟩ := h.exists_reg hE
    exact ⟨_, .mmac (h.dReady hd) hA' hB' hE' (by rwa [MulShapes, hAr, hAc, hBr, hBc, hEr, hEc]),
      h.setReg _ (by simp [matMulAdd, hAr, hBc])⟩
  | enc hd hn hl ha =>
    exact ⟨_, .enc ⟨h.dReady hd.1, h.bReady hd.2⟩ hn (by rwa [← h.b]) (h.regionOk ha), h.setReg_ofFn ..⟩
  | unpk hd hn hl ha => exact ⟨_, .unpk (h.dReady hd) hn (by rwa [← h.logQ]) (h.regionOk ha), h.setReg_ofFn ..⟩
  | ldbe hd hn hl ha => exact ⟨_, .ldbe (h.dReady hd) hn hl (h.regionOk ha), h.setReg_ofFn ..⟩
  | samp hd hn hl ha => exact ⟨_, .samp ⟨h.dReady hd.1, h.kReady hd.2⟩ hn hl (h.regionOk ha), h.setReg_ofFn ..⟩
  | dec hd hM hl ha =>
    obtain ⟨M', hM', hr, hc⟩ := h.exists_reg hM
    exact ⟨_, .dec ⟨h.dReady hd.1, h.bReady hd.2⟩ hM' (by rwa [← h.b, hr, hc]) (h.regionOk ha), h.writeBuf _ _ _⟩
  | pack hd hM hl ha =>
    obtain ⟨M', hM', hr, hc⟩ := h.exists_reg hM
    exact ⟨_, .pack (h.dReady hd) hM' (by rwa [← h.logQ, hr, hc]) (h.regionOk ha), h.writeBuf _ _ _⟩

end

/-- Settles O19: the same fault comes first in both states, or the command has its effect in both. -/
theorem controlIsIndependentOfData : Obligations.ControlIsIndependentOfData := by
  intro i s t h
  rcases exec_cases s i with ⟨f, -, hf⟩ | ⟨u, hu, hexec⟩
  · exact ⟨_, _, hf, h.exec_takeFault hf, h.takeFault f⟩
  · obtain ⟨v, hv, huv⟩ := hu.exists_sameControl h
    exact ⟨_, _, hexec, exec_of_effect hv, huv.count⟩

/-! ## Every step answers (R244) -/

theorem exec_answers (i : Instr) (s : State) : ∃ t, exec i s = .next t := by
  rcases exec_cases s i with ⟨f, -, hf⟩ | ⟨u, -, hexec⟩
  · exact ⟨_, hf⟩
  · exact ⟨_, hexec⟩

theorem issue_answers (cmd : Command) (s : State) : ∃ t, issue cmd s = .next t := by
  rcases issue_cases cmd s with ⟨-, h⟩ | ⟨-, -, h⟩ | ⟨i, -, -, h⟩
  · exact ⟨_, h⟩
  · exact ⟨_, h⟩
  · exact h ▸ exec_answers i s

theorem step_answers (s : State) : ∃ t, step s = .next t := by
  cases hp : s.port with
  | nil => exact ⟨s, step_idle hp⟩
  | cons tr rest =>
    rw [step_transact hp]
    cases tr with
    | issue cmd => exact issue_answers cmd _
    | csrRead | bufWrite | bufRead | reset | resetDuring => exact ⟨_, rfl⟩

/-- Settles O12: every command takes a fault or has its effect, and every transaction has its answer. -/
theorem everyStepAnswersANextState : Obligations.EveryStepAnswersANextState :=
  ⟨step_answers, exec_answers⟩

/-! ## What changes a byte of `BUF` (R232, R67) -/

theorem writesBuf_of_exec_bufByte_ne {s t : State} {i : Instr} {a : Nat} (h : exec i s = .next t)
    (hne : t.bufByte a ≠ s.bufByte a) : writesBuf i a := by
  rcases exec_next_cases h with ⟨f, rfl⟩ | ⟨u, hu, rfl⟩
  · exact absurd rfl hne
  · exact not_not.mp fun ha => hne (hu.bufByte_of_not_writesBuf ha)

/-- Settles O23: of all a step without a reset can do, only an executed command and a `BufWrite` change bytes. -/
theorem onlyStoresAndBufWritesChangeBuf : Obligations.OnlyStoresAndBufWritesChangeBuf := by
  intro s t a hno hstep hne
  rcases step_cases hstep with ⟨-, rfl⟩ | ⟨tr, rest, hp, hissue | ⟨a', v, rfl, -, rfl⟩ | ⟨hreset, -⟩ | ⟨-, -, r, rfl⟩⟩
  · exact absurd rfl hne
  · obtain ⟨cmd, rfl, ⟨-, rfl⟩ | ⟨-, -, rfl⟩ | ⟨i, -, hd, hexec⟩⟩ := hissue
    · exact absurd rfl hne
    · exact absurd rfl hne
    · exact .inr ⟨cmd, rest, i, hp, hd, writesBuf_of_exec_bufByte_ne hexec hne⟩
  · refine .inl ⟨a', v, rest, hp, not_not.mp fun ha => hne ?_⟩
    exact State.bufByte_writeBuf_outside _ _ _ _ (by rw [List.length_singleton]; omega)
  · have hnot := hno tr (by rw [hp]; rfl)
    exact absurd (hreset.symm.trans hnot) Bool.noConfusion
  · exact absurd rfl hne

/-! ## The count of a run (R245) -/

section
variable {s t u : State}

/-- A command that ends with `FAULT = 0` has counted (R39, R98). -/
theorem exec_cseq {i : Instr} (h : exec i s = .next t) (hf : t.fault = false) : t.cseq = s.cseq + 1 := by
  rcases exec_next_cases h with ⟨f, rfl⟩ | ⟨u, hu, rfl⟩
  · exact absurd hf Bool.noConfusion
  · obtain ⟨-, -, -, hcseq, -⟩ := hu.kept
    exact congrArg (· + 1) hcseq

theorem exec_port {i : Instr} (h : exec i s = .next t) : t.port = s.port := by
  rcases exec_next_cases h with ⟨f, rfl⟩ | ⟨u, hu, rfl⟩
  · rfl
  · obtain ⟨-, -, -, -, -, -, hport, -⟩ := hu.kept
    exact hport

/-- Every step takes the next transaction off the port, if there is one (R75, R223). -/
theorem step_port (h : step s = .next t) : t.port = s.port.drop 1 := by
  rcases step_cases h with ⟨hp, rfl⟩ | ⟨tr, rest, hp, hissue | ⟨a, v, -, -, rfl⟩ | ⟨-, rfl⟩ | ⟨-, -, r, rfl⟩⟩ <;> rw [hp]
  · rfl
  · obtain ⟨cmd, -, ⟨-, rfl⟩ | ⟨-, -, rfl⟩ | ⟨i, -, -, hexec⟩⟩ := hissue
    · rfl
    · rfl
    · exact exec_port hexec
  · rfl
  · rfl
  · rfl

/-- The run of `n` steps from `s` to `t` took the next `n` transactions and counted the commands among them. -/
def Counted (n : Nat) (s t : State) : Prop :=
  s.fault = false ∧ t.cseq = s.cseq + BitVec.ofNat 32 ((s.port.take n).countP Transaction.isIssue) ∧
    t.port = s.port.drop n

theorem Counted.trans {m n : Nat} (h : Counted m s u) (h' : Counted n u t) : Counted (m + n) s t := by
  obtain ⟨hfault, hcseq, hport⟩ := h
  obtain ⟨-, hcseq', hport'⟩ := h'
  refine ⟨hfault, ?_, by rw [hport', hport, List.drop_drop]⟩
  rw [hcseq', hcseq, hport, List.take_add, List.countP_append, BitVec.ofNat_add, BitVec.add_assoc]

/-- One step without a reset that ends with `FAULT = 0` counts a command exactly when it was issued one. -/
theorem step_counted (hno : s.NoResetNext) (h : step s = .next t) (hf : t.fault = false) : Counted 1 s t := by
  have hs : s.fault = false := by
    refine Bool.eq_false_iff.mpr fun hs => ?_
    obtain ⟨ht, -⟩ := faultIsStickyUntilReset s t hs hno h
    exact absurd (hf.symm.trans ht) Bool.noConfusion
  refine ⟨hs, ?_, step_port h⟩
  rcases step_cases h with ⟨hp, rfl⟩ | ⟨tr, rest, hp, hissue | ⟨a, v, rfl, -, rfl⟩ | ⟨hreset, -⟩ | ⟨htr, -, r, rfl⟩⟩
  · simp [hp]
  · obtain ⟨cmd, rfl, ⟨hs', -⟩ | ⟨-, -, rfl⟩ | ⟨i, -, -, hexec⟩⟩ := hissue
    · exact absurd (hs.symm.trans hs') Bool.noConfusion
    · exact absurd hf Bool.noConfusion
    · simp [hp, exec_cseq hexec hf, Transaction.isIssue]
  · simp [hp, Transaction.isIssue]
  · have hnot := hno tr (by rw [hp]; rfl)
    exact absurd (hreset.symm.trans hnot) Bool.noConfusion
  · simp [hp, htr]

theorem run_succ {n : Nat} (h : step s = .next u) :
    Host.Core.run Sys2Proof.core (n + 1) s = Host.Core.run Sys2Proof.core n u := by
  have hcore : Sys2Proof.core.step s = .next u := h
  simp only [Host.Core.run, hcore]

/-- A run without a reset that ends with `FAULT = 0` is counted: with `FAULT = 0` at its end every later state of it has
`FAULT = 0`, so that each step counts. -/
theorem run_counted {n : Nat} (hno : ∀ tr ∈ s.port.take n, tr.isReset = false)
    (h : Host.Core.run Sys2Proof.core n s = .next t) (hf : t.fault = false) : Counted n s t := by
  induction n generalizing s with
  | zero =>
    obtain rfl : s = t := Host.Outcome.next.inj h
    exact ⟨hf, by simp, rfl⟩
  | succ n ih =>
    obtain ⟨u, hu⟩ := step_answers s
    rw [run_succ hu] at h
    rw [Nat.add_comm, List.take_add, List.forall_mem_append, ← step_port hu] at hno
    obtain ⟨hfirst, hlater⟩ := hno
    have hrest : Counted n u t := ih hlater h
    have hno1 : s.NoResetNext := fun tr htr => hfirst tr (by rw [List.take_one, htr]; exact List.mem_singleton_self tr)
    exact Nat.add_comm 1 n ▸ (step_counted hno1 hu hrest.1).trans hrest

end

/-- Settles O24, by induction on the number of steps. -/
theorem successfulRunCountsItsCommands : Obligations.SuccessfulRunCountsItsCommands :=
  fun _ _ _ => run_counted

end Sys2Proof.Machine
end
